-- ==== Sys2Proof/Word.lean ====
section
/-! DEFINITION. The two sizes of datum the core has: the 16-bit word (memory cell, register, stack entry,
instruction pointer, input-queue entry) and the 8-bit output character (spec/00_scope.md R5, R6). -/

namespace Sys2Proof

/-- A word: `WORD_BITS` = 16 bits, unsigned, bit 0 the least significant (R5, R6). -/
abbrev Word := BitVec 16

/-- An output character code (`OUT_CHAR_BITS` = 8, R5), and one byte of a program image (R161). -/
abbrev Byte := BitVec 8

end Sys2Proof
end

