-- ==== Sys2Proof/Config.lean ====
section
/-! DEFINITION. What one instance of the core fixes for its whole life (spec/10_state.md R27: "Configuration, not
state"): the four parameters of spec/00_scope.md R5 that R27 lists. No value is left free: every step has exactly one
successor (R175). -/

namespace Sys2Proof

/-- The capacity of the input queue or of the output buffer. "The spec gives no meaning to finite values" (decision D5),
so that there is the one value it does give (log entry 10). -/
inductive SequenceCapacity where
  | unbounded
  deriving DecidableEq, Repr

/-- The configuration of one machine (R5, R27). No step changes it (R117). -/
structure Config where
  /-- `CYCLE_CEILING`: the safety ceiling of the cycle counter (R5, R115). -/
  cycleCeiling : Nat
  /-- `STACK_CAPACITY`: the largest number of stack entries, `none` for the unbounded stack (R5, R15, decision D4). -/
  stackCapacity : Option Nat
  /-- `INQ_CAPACITY`: the largest number of pending input words (R5, R19, decision D5). -/
  inqCapacity : SequenceCapacity
  /-- `OUTBUF_CAPACITY`: the largest number of buffered output characters (R5, R20, decision D5). -/
  outbufCapacity : SequenceCapacity
  deriving DecidableEq, Repr

end Sys2Proof
end

