-- ==== Sys2Proof/Machine/Params.lean ====
section
/-! DEFINITION. The fixed numbers of the architecture (spec/00_scope.md R5), each a single named constant. -/

namespace Sys2Proof.Machine

/-- `MEM_WORDS`: the number of memory words; a legal address is below it (R5, R37). -/
abbrev memWords : Nat := 32768

/-- `VALUE_MOD`: the modulus of add, multiply and modulo (R5, R79). -/
abbrev valueMod : Nat := 32768

/-- `VALUE_MASK`: what `not` exclusive-ors its operand with (R5, R90). -/
abbrev valueMask : Word := 0x7FFF#16

/-- `REG_BASE`: the literal/register boundary; the raw operand word `REG_BASE + i` denotes register i (R5, R48). -/
abbrev regBase : Nat := 32768

/-- `REG_LIMIT` = `REG_BASE + NUM_REGS`: the first raw operand word that is invalid (R5, R48). -/
abbrev regLimit : Nat := 32776

/-- The default configuration: `CYCLE_CEILING` = 5,000,000, and an unbounded stack, input queue and output buffer (R5,
decisions D4, D5 and D6; log entries 6 and 10). -/
def defaultConfig : Config where
  cycleCeiling := 5000000
  stackCapacity := none
  inqCapacity := .unbounded
  outbufCapacity := .unbounded

end Sys2Proof.Machine
end

