-- ==== Sys2Proof/Machine/Alu.lean ====
section
/-! DEFINITION. The ALU (spec/43_arithmetic.md R79, R80; spec/44_bitwise.md R87). Arithmetic is exact on natural
numbers and reduced modulo `VALUE_MOD` at the end; the bitwise operations are on whole 16-bit words (decision D3). -/

namespace Sys2Proof.Machine

/-- The reduction modulo 32768 that comes last (R79, R80). -/
def reduce (n : Nat) : Word := BitVec.ofNat 16 (n % valueMod)

/-- `(p + q) mod 32768` (R81). -/
def aluAdd (p q : Word) : Word := reduce (p.toNat + q.toNat)

/-- `(p * q) mod 32768`, the product exact (R82). -/
def aluMultiply (p q : Word) : Word := reduce (p.toNat * q.toNat)

/-- `(p mod q) mod 32768` for a divisor that is not 0 (R83). -/
def aluModulo (p q : Word) : Word := reduce (p.toNat % q.toNat)

/-- 16-bit AND, no reduction (R88). -/
def aluAnd (p q : Word) : Word := p &&& q

/-- 16-bit OR, no reduction (R89). -/
def aluOr (p q : Word) : Word := p ||| q

/-- XOR with 32767; bit 15 passes through (R90). -/
def aluNot (p : Word) : Word := p ^^^ valueMask

end Sys2Proof.Machine
end

