-- ==== Sys2Proof/Syntax.lean ====
section
/-! DEFINITION. The typed instruction value the decoder hands to the executor (spec/30_encoding.md R51): one
constructor for each of the 22 opcodes of R50, in the order of their numbers, with its operands in encoding order. -/

namespace Sys2Proof

/-- A decoded operand (R48, R51): a literal value, or a reference to one of the eight registers. -/
inductive Operand where
  /-- `Lit(v)`. A well-formed literal is in 0..32767 (`Operand.wf`). -/
  | lit (v : Word)
  /-- `Reg(i)`, 0 <= i <= 7. -/
  | reg (i : Fin 8)
  deriving DecidableEq, Repr

/-- The 22 instructions (R50). An operand named `dst` must be a register reference when the instruction executes;
a literal there still decodes (R54). -/
inductive Instr where
  | halt
  | set (dst src : Operand)
  | push (src : Operand)
  | pop (dst : Operand)
  | eq (dst a b : Operand)
  | gt (dst a b : Operand)
  | jmp (target : Operand)
  | jumpIfTrue (cond target : Operand)
  | jumpIfFalse (cond target : Operand)
  | add (dst a b : Operand)
  | multiply (dst a b : Operand)
  | modulo (dst a b : Operand)
  | and (dst a b : Operand)
  | or (dst a b : Operand)
  | not (dst a : Operand)
  | readMemory (dst addr : Operand)
  | writeMemory (addr src : Operand)
  | call (target : Operand)
  | ret
  | output (src : Operand)
  | input (dst : Operand)
  | noop
  deriving DecidableEq, Repr

/-- The operands in encoding order, A then B then C (R8, R50). -/
def Instr.operands : Instr → List Operand
  | .halt => []
  | .set dst src => [dst, src]
  | .push src => [src]
  | .pop dst => [dst]
  | .eq dst a b => [dst, a, b]
  | .gt dst a b => [dst, a, b]
  | .jmp target => [target]
  | .jumpIfTrue cond target => [cond, target]
  | .jumpIfFalse cond target => [cond, target]
  | .add dst a b => [dst, a, b]
  | .multiply dst a b => [dst, a, b]
  | .modulo dst a b => [dst, a, b]
  | .and dst a b => [dst, a, b]
  | .or dst a b => [dst, a, b]
  | .not dst a => [dst, a]
  | .readMemory dst addr => [dst, addr]
  | .writeMemory addr src => [addr, src]
  | .call target => [target]
  | .ret => []
  | .output src => [src]
  | .input dst => [dst]
  | .noop => []

/-- The destination operand, for the twelve instructions that have one (the table of spec/10_state.md R12).
`writeMemory`'s address is not a destination (spec/60_exceptions.md R141). -/
def Instr.destination : Instr → Option Operand
  | .halt => none
  | .set dst _ => some dst
  | .push _ => none
  | .pop dst => some dst
  | .eq dst _ _ => some dst
  | .gt dst _ _ => some dst
  | .jmp _ => none
  | .jumpIfTrue _ _ => none
  | .jumpIfFalse _ _ => none
  | .add dst _ _ => some dst
  | .multiply dst _ _ => some dst
  | .modulo dst _ _ => some dst
  | .and dst _ _ => some dst
  | .or dst _ _ => some dst
  | .not dst _ => some dst
  | .readMemory dst _ => some dst
  | .writeMemory _ _ => none
  | .call _ => none
  | .ret => none
  | .output _ => none
  | .input dst => some dst
  | .noop => none

end Sys2Proof
end

