-- ==== Sys2Proof/Machine/State.lean ====
section
/-! DEFINITION. The state of one machine: the record of spec/10_state.md R27, and the configuration it was built with. -/

namespace Sys2Proof.Machine

/-- The closed list of error causes with their payloads (spec/60_exceptions.md R135; names and payloads are the spec's
decision D14, log entry 16). -/
inductive Cause where
  /-- The opcode word, 22..65535 (R138). Raised by the decoder. -/
  | unknownOpcode (w : Word)
  /-- The operand word, 32776..65535 (R139). Raised by the decoder. -/
  | invalidOperand (v : Word)
  /-- The address, 32768..65535 (R140). Raised by the decoder, `read-memory` and `write-memory`. -/
  | addressOutOfRange (a : Word)
  /-- The increment brought `cycles` to the ceiling (R143). Raised by the governor. -/
  | cycleCeiling
  /-- `pop` with an empty stack (R142). -/
  | stackUnderflow
  /-- The literal that stands in a destination position (R141). -/
  | writeToImmediate (v : Word)
  /-- `modulo` with divisor word 0 (R144, decision D11). -/
  | moduloByZero
  /-- `push` or `call` on a stack of finite capacity that is full (R145, decision D4). -/
  | stackOverflow
  deriving DecidableEq, Repr

/-- The execution state, a tagged union with five cases (R16). -/
inductive ExecState where
  | initialized
  | running
  | waitingForInput
  | errored (cause : Cause)
  | halted
  deriving DecidableEq, Repr

/-- Memory: the cells that differ from the fill word, by word address (R21, R30). The canonical form is `Memory.wf`. -/
abbrev Memory := List (Nat × Word)

/-- The complete state of one machine instance (R27), with its configuration carried along (log entry 2). -/
structure State where
  /-- Memory, 32768 words of 16 bits (R21). -/
  mem : Memory
  /-- The eight general registers `x[0]` to `x[7]` (R10). -/
  x : Vector Word 8
  /-- The stack, its top entry first (R15). -/
  stack : List Word
  /-- The instruction pointer (R13). -/
  ip : Word
  /-- The execution state with the error cause (R16, R17). -/
  state : ExecState
  /-- The cycle counter, a natural number (R18, R27, decision D7). -/
  cycles : Nat
  /-- The input queue, its oldest word first (R19). -/
  inq : List Word
  /-- The output buffer, its oldest character first (R20). -/
  outbuf : List Byte
  /-- The configuration the machine was built with: not state, and changed by nothing (R27, R117). -/
  config : Config
  deriving DecidableEq, Repr

/-- Why a step stops with a fault. It has no constructor: the core reports every fault condition through its own state
`Errored` (R134, R136), which is a next state, and every step from every state has a successor (R175). Safe: nothing
stops. -/
inductive Fault where
  deriving DecidableEq, Repr

/-- Why a step is refused. -/
inductive Refusal where
  /-- Raised by `exec` for an instruction that has no meaning yet, by its mnemonic. Safe: the machine stops. No arm of
  `exec` raises it: every instruction has its meaning. -/
  | notModelled (mnemonic : String)
  deriving DecidableEq, Repr

/-- The outcome of an instruction or of a step. -/
abbrev Result := Host.Outcome State Fault Refusal

/-- The machine right after reset (R26, R160): the empty image, so that every memory word is 0 (R161), and the default
configuration. Another image is loaded by `State.resetFrom`. -/
def State.reset : State where
  mem := []
  x := Vector.replicate 8 0#16
  stack := []
  ip := 0#16
  state := .initialized
  cycles := 0
  inq := []
  outbuf := []
  config := defaultConfig

end Sys2Proof.Machine
end

