-- ==== Sys2Proof/Machine/Ops.lean ====
section
/-! DEFINITION. The named operations over the state record (the primitives of spec/00_scope.md R7): memory, registers,
stack, queues, the instruction pointer, raising an error (R136), and entering and leaving the other execution states. -/

namespace Sys2Proof.Machine

/-! ### Replacing one field -/

/-- The state with another memory. -/
def State.setMem (s : State) (m : Memory) : State := { s with mem := m }

/-- The state with another stack. -/
def State.setStack (s : State) (l : List Word) : State := { s with stack := l }

/-- The state with another input queue. -/
def State.setInq (s : State) (l : List Word) : State := { s with inq := l }

/-! ### Memory -/

/-- What an address that no entry lists reads as: the zero fill (spec/70_reset_and_hazards.md R161, R26). -/
def Memory.fill : Word := 0#16

/-- The word at an address. -/
def Memory.read : Memory → Nat → Word
  | [], _ => Memory.fill
  | (k, w) :: m, a => if k = a then w else Memory.read m a

/-- Puts an entry in front of the first entry of a higher address. -/
def Memory.insert (a : Nat) (v : Word) : Memory → Memory
  | [] => [(a, v)]
  | (k, w) :: m => if a < k then (a, v) :: (k, w) :: m else (k, w) :: Memory.insert a v m

/-- Replaces the word at an address. Writing the fill word leaves the address unlisted. -/
def Memory.write (m : Memory) (a : Nat) (v : Word) : Memory :=
  let others := m.filter fun cell => cell.1 != a
  if v = Memory.fill then others else Memory.insert a v others

/-- The words of an image, stored one after another from address `k` on (R161). -/
def Memory.ofWords (k : Nat) : List Word → Memory
  | [] => []
  | w :: ws => if w = Memory.fill then Memory.ofWords (k + 1) ws else (k, w) :: Memory.ofWords (k + 1) ws

/-- The canonical form: addresses strictly rising, every address a memory address, no cell equal to the fill word. -/
abbrev Memory.wf (m : Memory) : Prop :=
  m.Pairwise (fun p q => p.1 < q.1) ∧ ∀ cell ∈ m, cell.1 < memWords ∧ cell.2 ≠ Memory.fill

/-- `MemRead(a, 1)` (spec/20_memory.md R31); `none` where the address does not exist (R37), so that a caller cannot
read without the range test. -/
def State.memRead (s : State) (a : Word) : Option Word :=
  if a.toNat < memWords then some (s.mem.read a.toNat) else none

/-- `MemWrite(a, 1, v)` (R32); `none` where the address does not exist (R37). -/
def State.memWrite (s : State) (a v : Word) : Option State :=
  if a.toNat < memWords then some (s.setMem (s.mem.write a.toNat v)) else none

/-! ### Registers, stack and queues -/

/-- `x[i]` (spec/10_state.md R11). -/
def State.getReg (s : State) (i : Fin 8) : Word := s.x[i]

/-- `x[i] <- v` (R11): the whole word, and nothing else. -/
def State.setReg (s : State) (i : Fin 8) (v : Word) : State := { s with x := s.x.set i v }

/-- Whether the stack holds `STACK_CAPACITY` entries (R15, R145); never with the unbounded default. -/
def State.stackFull (s : State) : Bool :=
  match s.config.stackCapacity with
  | none => false
  | some n => decide (n ≤ s.stack.length)

/-- `push(v)` (R15). -/
def State.push (s : State) (v : Word) : State := s.setStack (v :: s.stack)

/-- `pop()` (R15): the top entry and the state without it; `none` when `stack_empty`. -/
def State.pop (s : State) : Option (Word × State) :=
  match s.stack with
  | [] => none
  | v :: rest => some (v, s.setStack rest)

/-- `inq_append(w)` (R19). -/
def State.inqAppend (s : State) (w : Word) : State := s.setInq (s.inq ++ [w])

/-- `inq_take()` (R19): the oldest word and the state without it; `none` when `inq_empty`. -/
def State.inqTake (s : State) : Option (Word × State) :=
  match s.inq with
  | [] => none
  | w :: rest => some (w, s.setInq rest)

/-- `out_append(c)` (R20). -/
def State.outAppend (s : State) (c : Byte) : State := { s with outbuf := s.outbuf ++ [c] }

/-! ### The instruction pointer and the execution state -/

/-- `ip <- t` (R13): any word, unchecked (decision D10, log entry 12). -/
def State.setIp (s : State) (t : Word) : State := { s with ip := t }

/-- The decoder's advance of the instruction pointer over `n` words (R13, R46). -/
def State.advance (s : State) (n : Nat) : State := s.setIp (s.ip + BitVec.ofNat 16 n)

/-- The rewind of a blocked `input`: the opcode word and one operand word, 2 (spec/47_io.md R105). -/
def State.rewind (s : State) : State := s.setIp (s.ip - 2#16)

/-- `state <- e` (R16). -/
def State.setState (s : State) (e : ExecState) : State := { s with state := e }

/-- `raise <Cause>(info)`: TAKING AN ERROR (spec/60_exceptions.md R136, R146). It writes `state` and nothing else: there
is no saved pc, no handler address and no mode. There is no return from it (R148). -/
def State.raise (s : State) (c : Cause) : State := s.setState (.errored c)

/-- The stop of `halt` and of `return` on an empty stack (R102, R157). -/
def State.halt (s : State) : State := s.setState .halted

/-- A blocked `input`: rewound, and waiting (spec/47_io.md R105). -/
def State.block (s : State) : State := s.rewind.setState .waitingForInput

/-- What `run()` does first (spec/49_run_loop_host.md R118): the start of an initialized machine and the resumption of
a waiting one; on a terminal machine it is the guarded no-op of R120. It is the one way back from a stop, and only
from the blocking one. -/
def State.enterRun (s : State) : State :=
  match s.state with
  | .initialized => s.setState .running
  | .waitingForInput => s.setState .running
  | .running => s
  | .halted => s
  | .errored _ => s

/-- The numeric code of a cause (R135; labels of decision D14, log entry 16). -/
def Cause.code : Cause → Nat
  | .unknownOpcode _ => 1
  | .invalidOperand _ => 2
  | .addressOutOfRange _ => 3
  | .cycleCeiling => 4
  | .stackUnderflow => 5
  | .writeToImmediate _ => 6
  | .moduloByZero => 7
  | .stackOverflow => 8

end Sys2Proof.Machine
end

