-- ==== Sys2Proof/Machine/Operands.lean ====
section
/-! DEFINITION. The operand resolver's execute-time half (spec/10_state.md R12): every operand form there is. -/

namespace Sys2Proof.Machine

/-- `val(op)`: the literal, or the register's current word (R12). -/
def State.val (s : State) : Operand → Word
  | .lit v => v
  | .reg i => s.getReg i

/-- Phases 3 and 4 of an instruction that has a destination (spec/49_run_loop_host.md R116): a literal raises
`WriteToImmediate` and nothing is written (R141); a register lets the writes of `commit` happen. -/
def withDestination (dst : Operand) (s : State) (commit : Fin 8 → State) : Result :=
  match dst with
  | .lit v => .next (s.raise (.writeToImmediate v))
  | .reg i => .next (commit i)

/-- `wr(dst, v)` after its check `dst_ok` (R12), for the instructions whose one write is their destination register. -/
def writeDestination (dst : Operand) (v : Word) (s : State) : Result :=
  withDestination dst s fun i => s.setReg i v

end Sys2Proof.Machine
end

