-- ==== Sys2Proof/Machine/Arithmetic.lean ====
section
/-! DEFINITION. add, multiply, modulo (spec/43_arithmetic.md). -/

namespace Sys2Proof.Machine

/-- `add(dst, a, b)` (R81). -/
def execAdd (dst a b : Operand) (s : State) : Result :=
  writeDestination dst (aluAdd (s.val a) (s.val b)) s

/-- `multiply(dst, a, b)` (R82). -/
def execMultiply (dst a b : Operand) (s : State) : Result :=
  writeDestination dst (aluMultiply (s.val a) (s.val b)) s

/-- `modulo(dst, a, b)` (R83): the divisor is tested before the destination (decisions D11, D12). -/
def execModulo (dst a b : Operand) (s : State) : Result :=
  if s.val b = 0#16 then .next (s.raise .moduloByZero)
  else writeDestination dst (aluModulo (s.val a) (s.val b)) s

end Sys2Proof.Machine
end

