-- ==== Sys2Proof/Machine/Bitwise.lean ====
section
/-! DEFINITION. and, or, not (spec/44_bitwise.md). -/

namespace Sys2Proof.Machine

/-- `and(dst, a, b)` (R88). -/
def execAnd (dst a b : Operand) (s : State) : Result :=
  writeDestination dst (aluAnd (s.val a) (s.val b)) s

/-- `or(dst, a, b)` (R89). -/
def execOr (dst a b : Operand) (s : State) : Result :=
  writeDestination dst (aluOr (s.val a) (s.val b)) s

/-- `not(dst, a)` (R90). -/
def execNot (dst a : Operand) (s : State) : Result :=
  writeDestination dst (aluNot (s.val a)) s

end Sys2Proof.Machine
end

