-- ==== Sys2Proof/Machine/CallReturn.lean ====
section
/-! DEFINITION. call, return (spec/46_call_return.md). -/

namespace Sys2Proof.Machine

/-- `call(target)` (R99): pushes the post-decode instruction pointer, then jumps. -/
def execCall (target : Operand) (s : State) : Result :=
  if s.stackFull then .next (s.raise .stackOverflow) else .next ((s.push s.ip).setIp (s.val target))

/-- `return` (R100): on an empty stack it is normal completion. -/
def execReturn (s : State) : Result :=
  match s.pop with
  | none => .next s.halt
  | some (t, popped) => .next (popped.setIp t)

end Sys2Proof.Machine
end

