-- ==== Sys2Proof/Machine/Flags.lean ====
section
/-! DEFINITION. The core has no flags, condition codes or predicate registers (spec/10_state.md R22). This file holds
what stands in their place: the words the comparisons write (spec/41_compare.md R70) and the tests the conditional
jumps make (spec/42_jumps.md R76, R77). -/

namespace Sys2Proof.Machine

/-- "Store 1 if comparison holds else 0" (R70). -/
def comparisonWord (holds : Bool) : Word := if holds then 1#16 else 0#16

/-- `eq`: the whole 16-bit words are equal (R71, decision D3). -/
def equalWord (p q : Word) : Word := comparisonWord (p == q)

/-- `gt`: unsigned and strict, on the whole 16-bit words (R72, decision D3). -/
def greaterWord (p q : Word) : Word := comparisonWord (decide (q.toNat < p.toNat))

/-- The condition of a conditional jump: the whole word is nonzero (R76, decision D3). -/
def isTrueWord (c : Word) : Bool := c != 0#16

end Sys2Proof.Machine
end

