-- ==== Sys2Proof/Machine/Compare.lean ====
section
/-! DEFINITION. eq, gt (spec/41_compare.md). -/

namespace Sys2Proof.Machine

/-- `eq(dst, a, b)` (R71). -/
def execEq (dst a b : Operand) (s : State) : Result :=
  writeDestination dst (equalWord (s.val a) (s.val b)) s

/-- `gt(dst, a, b)` (R72): a is the second encoded operand, b the third. -/
def execGt (dst a b : Operand) (s : State) : Result :=
  writeDestination dst (greaterWord (s.val a) (s.val b)) s

end Sys2Proof.Machine
end

