-- ==== Sys2Proof/Machine/HaltNoop.lean ====
section
/-! DEFINITION. halt, no-op (spec/48_halt_noop.md). -/

namespace Sys2Proof.Machine

/-- `halt` (R110). -/
def execHalt (s : State) : Result := .next s.halt

/-- `no-op` (R111): nothing beyond the decoder's advance. -/
def execNoop (s : State) : Result := .next s

end Sys2Proof.Machine
end

