-- ==== Sys2Proof/Machine/InputOutput.lean ====
section
/-! DEFINITION. output, input (spec/47_io.md). -/

namespace Sys2Proof.Machine

/-- `output(src)` (R104): bits 7..0 of the value. -/
def execOutput (src : Operand) (s : State) : Result :=
  .next (s.outAppend ((s.val src).setWidth 8))

/-- `input(dst)` (R105): with an empty queue it blocks, whatever the destination; a failing `input` takes nothing
(decision D12). -/
def execInput (dst : Operand) (s : State) : Result :=
  match s.inqTake with
  | none => .next s.block
  | some (w, taken) => withDestination dst s fun i => taken.setReg i w

end Sys2Proof.Machine
end

