-- ==== Sys2Proof/Machine/Jumps.lean ====
section
/-! DEFINITION. jmp, jump-if-true, jump-if-false (spec/42_jumps.md). The target is absolute and unchecked (R74). -/

namespace Sys2Proof.Machine

/-- `jmp(target)` (R75). -/
def execJmp (target : Operand) (s : State) : Result :=
  .next (s.setIp (s.val target))

/-- `jump-if-true(cond, target)` (R76). -/
def execJumpIfTrue (cond target : Operand) (s : State) : Result :=
  if isTrueWord (s.val cond) then .next (s.setIp (s.val target)) else .next s

/-- `jump-if-false(cond, target)` (R77). -/
def execJumpIfFalse (cond target : Operand) (s : State) : Result :=
  if isTrueWord (s.val cond) then .next s else .next (s.setIp (s.val target))

end Sys2Proof.Machine
end

