-- ==== Sys2Proof/Machine/MemoryAccess.lean ====
section
/-! DEFINITION. read-memory, write-memory (spec/45_memory_access.md). The effective address is the resolved value of
the address operand; one above 32767 raises `AddressOutOfRange` with no access made (R93, decision D9). -/

namespace Sys2Proof.Machine

/-- `read-memory(dst, addr)` (R94): the address is tested before the destination (decision D12). -/
def execReadMemory (dst addr : Operand) (s : State) : Result :=
  match s.memRead (s.val addr) with
  | none => .next (s.raise (.addressOutOfRange (s.val addr)))
  | some v => writeDestination dst v s

/-- `write-memory(addr, src)` (R95): the address comes first, and a literal there is no destination. -/
def execWriteMemory (addr src : Operand) (s : State) : Result :=
  match s.memWrite (s.val addr) (s.val src) with
  | none => .next (s.raise (.addressOutOfRange (s.val addr)))
  | some stored => .next stored

end Sys2Proof.Machine
end

