-- ==== Sys2Proof/Machine/SetStack.lean ====
section
/-! DEFINITION. set, push, pop (spec/40_set_stack.md). Each moves one whole word (R65, decision D2). -/

namespace Sys2Proof.Machine

/-- `set(dst, src)` (R66). -/
def execSet (dst src : Operand) (s : State) : Result :=
  writeDestination dst (s.val src) s

/-- `push(src)` (R67). -/
def execPush (src : Operand) (s : State) : Result :=
  if s.stackFull then .next (s.raise .stackOverflow) else .next (s.push (s.val src))

/-- `pop(dst)` (R68): the stack is tested before the destination, and a failing `pop` removes nothing (decision D12). -/
def execPop (dst : Operand) (s : State) : Result :=
  match s.pop with
  | none => .next (s.raise .stackUnderflow)
  | some (v, popped) => withDestination dst s fun i => popped.setReg i v

end Sys2Proof.Machine
end

