-- ==== Sys2Proof/Machine/Dispatch.lean ====
section
/-! DEFINITION. The execute phase's dispatch (spec/49_run_loop_host.md R116): one arm per instruction, each the call of
that instruction's meaning. The state it is given is the one the decoder and the governor have left: `ip` past the
instruction, `cycles` counted. -/

namespace Sys2Proof.Machine

def exec (i : Instr) (s : State) : Host.Outcome State Fault Refusal :=
  match i with
  | .halt => Sys2Proof.Machine.execHalt s
  | .set dst src => Sys2Proof.Machine.execSet dst src s
  | .push src => Sys2Proof.Machine.execPush src s
  | .pop dst => Sys2Proof.Machine.execPop dst s
  | .eq dst a b => Sys2Proof.Machine.execEq dst a b s
  | .gt dst a b => Sys2Proof.Machine.execGt dst a b s
  | .jmp target => Sys2Proof.Machine.execJmp target s
  | .jumpIfTrue cond target => Sys2Proof.Machine.execJumpIfTrue cond target s
  | .jumpIfFalse cond target => Sys2Proof.Machine.execJumpIfFalse cond target s
  | .add dst a b => Sys2Proof.Machine.execAdd dst a b s
  | .multiply dst a b => Sys2Proof.Machine.execMultiply dst a b s
  | .modulo dst a b => Sys2Proof.Machine.execModulo dst a b s
  | .and dst a b => Sys2Proof.Machine.execAnd dst a b s
  | .or dst a b => Sys2Proof.Machine.execOr dst a b s
  | .not dst a => Sys2Proof.Machine.execNot dst a s
  | .readMemory dst addr => Sys2Proof.Machine.execReadMemory dst addr s
  | .writeMemory addr src => Sys2Proof.Machine.execWriteMemory addr src s
  | .call target => Sys2Proof.Machine.execCall target s
  | .ret => Sys2Proof.Machine.execReturn s
  | .output src => Sys2Proof.Machine.execOutput src s
  | .input dst => Sys2Proof.Machine.execInput dst s
  | .noop => Sys2Proof.Machine.execNoop s

end Sys2Proof.Machine
end

