-- ==== Sys2Proof/WellFormed.lean ====
section
/-! DEFINITION. Which instruction terms the decoder can produce (spec/30_encoding.md R51): literals in 0..32767. A
register index is below 8 by its type, and the number of operands is fixed by the constructor. A literal in a
destination position is well formed (R54). -/

namespace Sys2Proof

/-- A literal operand is below `REG_BASE` (R28, R48). -/
def Operand.wf : Operand → Bool
  | .lit v => decide (v.toNat < Machine.regBase)
  | .reg _ => true

/-- Every operand of the instruction is well formed (R51). -/
def Instr.wf (i : Instr) : Bool := i.operands.all Operand.wf

end Sys2Proof
end

