-- ==== Sys2Proof/Decode.lean ====
section
/-! DEFINITION. The decoder (spec/30_encoding.md R45 to R56) as a total function of the words that stand from the
instruction pointer on, and its inverse, the encoder (R64). -/

namespace Sys2Proof

/-- Operand classification, the literal/register boundary (R48); `none` is "invalid". -/
def classify (v : Word) : Option Operand :=
  if v.toNat < Machine.regBase then some (.lit v)
  else if v.toNat < Machine.regLimit then some (.reg (Fin.ofNat 8 (v.toNat - Machine.regBase)))
  else none

/-- Why a decode failed (R137), before the machine turns it into an error cause. -/
inductive DecodeError where
  /-- The opcode word is above 21 (R52). -/
  | unknownOpcode (w : Word)
  /-- An operand word is 32776 or more (R53). -/
  | invalidOperand (v : Word)
  /-- The decoder needs a word where memory has none: a fetch beyond address 32767 (R46, R140 (a) and (b)). -/
  | noWord
  deriving DecidableEq, Repr

/-- The outcome of decoding. In both cases `used` is the number of words the decoder has read, which is how far it has
advanced the instruction pointer (R14, R46). -/
inductive DecodeResult where
  | instr (i : Instr) (used : Nat)
  | fail (e : DecodeError) (used : Nat)
  deriving DecidableEq, Repr

/-- The `k`-th operand word: fetched, then classified, then handed on with the words after it (R46, the body of the
loop). -/
def withOperand (k : Nat) (words : List Word) (next : Operand → List Word → DecodeResult) : DecodeResult :=
  match words with
  | [] => .fail .noWord k
  | v :: rest =>
    match classify v with
    | some op => next op rest
    | none => .fail (.invalidOperand v) (k + 1)

/-- Format F1: one operand word (R45). -/
def decode1 (mk : Operand → Instr) (words : List Word) : DecodeResult :=
  withOperand 1 words fun a _ => .instr (mk a) 2

/-- Format F2: two operand words (R45). -/
def decode2 (mk : Operand → Operand → Instr) (words : List Word) : DecodeResult :=
  withOperand 1 words fun a words => withOperand 2 words fun b _ => .instr (mk a b) 3

/-- Format F3: three operand words (R45). -/
def decode3 (mk : Operand → Operand → Operand → Instr) (words : List Word) : DecodeResult :=
  withOperand 1 words fun a words => withOperand 2 words fun b words =>
    withOperand 3 words fun c _ => .instr (mk a b c) 4

/-- The opcode map (R50): the instruction that opcode number `k` starts, with the format of its operand words. `w` is the
opcode word itself, for the error that carries it (R52). -/
def decodeByOpcode (w : Word) (words : List Word) (k : Nat) : DecodeResult :=
  match k with
  | 0 => .instr .halt 1
  | 1 => decode2 .set words
  | 2 => decode1 .push words
  | 3 => decode1 .pop words
  | 4 => decode3 .eq words
  | 5 => decode3 .gt words
  | 6 => decode1 .jmp words
  | 7 => decode2 .jumpIfTrue words
  | 8 => decode2 .jumpIfFalse words
  | 9 => decode3 .add words
  | 10 => decode3 .multiply words
  | 11 => decode3 .modulo words
  | 12 => decode3 .and words
  | 13 => decode3 .or words
  | 14 => decode2 .not words
  | 15 => decode2 .readMemory words
  | 16 => decode2 .writeMemory words
  | 17 => decode1 .call words
  | 18 => .instr .ret 1
  | 19 => decode1 .output words
  | 20 => decode1 .input words
  | 21 => .instr .noop 1
  | _ => .fail (.unknownOpcode w) 1

/-- The decode algorithm (R46) on the words from the instruction pointer up to the end of memory. The opcode word is
compared whole (R47). -/
def decode : List Word → DecodeResult
  | [] => .fail .noWord 0
  | w :: words => decodeByOpcode w words w.toNat

/-- `arity(w)` of the opcode map: the number of operand words (R50); `none` where `w` is no opcode. -/
def arity : Nat → Option Nat
  | 0 => some 0
  | 1 => some 2
  | 2 => some 1
  | 3 => some 1
  | 4 => some 3
  | 5 => some 3
  | 6 => some 1
  | 7 => some 2
  | 8 => some 2
  | 9 => some 3
  | 10 => some 3
  | 11 => some 3
  | 12 => some 3
  | 13 => some 3
  | 14 => some 2
  | 15 => some 2
  | 16 => some 2
  | 17 => some 1
  | 18 => some 0
  | 19 => some 1
  | 20 => some 1
  | 21 => some 0
  | _ => none

/-- `1 + arity(w)`: the number of words of the instruction that the opcode word `w` starts, whatever its operand words
are; `none` where `w` is no opcode, whose length the spec calls undefined (R63). -/
def instructionLength (w : Word) : Option Nat := (arity w.toNat).map (· + 1)

/-- The word of an operand: `v` for `Lit(v)`, `REG_BASE + i` for `Reg(i)` (R64). -/
def encodeOperand : Operand → Word
  | .lit v => v
  | .reg i => BitVec.ofNat 16 (Machine.regBase + i.val)

/-- The opcode number of an instruction (R50). -/
def Instr.opcode : Instr → Word
  | .halt => 0#16
  | .set _ _ => 1#16
  | .push _ => 2#16
  | .pop _ => 3#16
  | .eq _ _ _ => 4#16
  | .gt _ _ _ => 5#16
  | .jmp _ => 6#16
  | .jumpIfTrue _ _ => 7#16
  | .jumpIfFalse _ _ => 8#16
  | .add _ _ _ => 9#16
  | .multiply _ _ _ => 10#16
  | .modulo _ _ _ => 11#16
  | .and _ _ _ => 12#16
  | .or _ _ _ => 13#16
  | .not _ _ => 14#16
  | .readMemory _ _ => 15#16
  | .writeMemory _ _ => 16#16
  | .call _ => 17#16
  | .ret => 18#16
  | .output _ => 19#16
  | .input _ => 20#16
  | .noop => 21#16

/-- Encoding, the inverse of decoding: the opcode word, then one word for each operand in order (R64). -/
def encode (i : Instr) : List Word := i.opcode :: i.operands.map encodeOperand

/-- The first four 16-bit words of an instruction whose bits are `w`, the first word in bits 15..0. -/
def tableWords (w : Nat) : List Word :=
  [BitVec.ofNat 16 w, BitVec.ofNat 16 (w / 2 ^ 16), BitVec.ofNat 16 (w / 2 ^ 32), BitVec.ofNat 16 (w / 2 ^ 48)]

/-- What the decoder reads from an opcode-table row's bits, every bit at `nbits` and above being 0. -/
def decodeTableWord (nbits w : Nat) : Option Instr :=
  match decode (tableWords (w % 2 ^ nbits)) with
  | .instr i _ => some i
  | .fail _ _ => none

end Sys2Proof
end

