-- ==== Sys2Proof/Machine/Fetch.lean ====
section
/-! DEFINITION. Fetching an instruction's words, and the decode phase of a step (spec/30_encoding.md R46). -/

namespace Sys2Proof.Machine

/-- At most `n` words from address `a` on, ending where memory ends: addresses do not wrap (spec/20_memory.md R37). -/
def Memory.window (m : Memory) : Nat → Nat → List Word
  | 0, _ => []
  | n + 1, a => if a < memWords then m.read a :: Memory.window m n (a + 1) else []

/-- The words an instruction at `ip` can have: 1 to 4, fewer at the top of memory (R45). Reading has no effect (R31),
so that reading the window before decoding it changes nothing (log entry 5). -/
def State.fetchWindow (s : State) : List Word := s.mem.window 4 s.ip.toNat

/-- What the decoder makes of the words at `ip` (R61: a function of `ip` and memory only). -/
def State.decoded (s : State) : DecodeResult := decode s.fetchWindow

/-- The cause of a decode failure (spec/60_exceptions.md R137). `ip` is where the decoder stopped, which is the address
of the fetch that found no word (R140 (a) and (b)). -/
def causeOf (ip : Word) : DecodeError → Cause
  | .unknownOpcode w => .unknownOpcode w
  | .invalidOperand v => .invalidOperand v
  | .noWord => .addressOutOfRange ip

/-- A decode failure: `ip` stays where the decoder left it, the error is raised, and nothing is counted (R14, R137,
decision D13). -/
def State.decodeFailure (s : State) (e : DecodeError) (used : Nat) : State :=
  (s.advance used).raise (causeOf (s.advance used).ip e)

end Sys2Proof.Machine
end

