-- ==== Sys2Proof/Machine/Cycle.lean ====
section
/-! DEFINITION. One step of a running core: decode, govern, execute (spec/49_run_loop_host.md R114, R115). -/

namespace Sys2Proof.Machine

/-- The counter's increment (R115). -/
def State.count (s : State) : State := { s with cycles := s.cycles + 1 }

/-- The state the executor is given: the decoder has advanced `ip` over `used` words and the governor has counted. -/
def State.prepared (s : State) (used : Nat) : State := (s.advance used).count

/-- The governor's test, after the increment (R115, decision D6). -/
def State.ceilingReached (s : State) : Bool := decide (s.config.cycleCeiling ≤ s.cycles)

/-- `step()` of R114. -/
def cycle (s : State) : Result :=
  match s.decoded with
  | .fail e used => .next (s.decodeFailure e used)
  | .instr i used =>
    if (s.prepared used).ceilingReached then .next ((s.prepared used).raise .cycleCeiling)
    else exec i (s.prepared used)

end Sys2Proof.Machine
end

