-- ==== Sys2Proof/Machine/Step.lean ====
section
/-! DEFINITION. One move of the machine. While it is `Running` that is one step of R114; otherwise it is what the
caller's `run()` does first (spec/49_run_loop_host.md R118, R120): `Initialized` and `WaitingForInput` become `Running`,
a terminal machine stays exactly as it is. The other operations of the caller are in Machine/Caller.lean (log entry 3). -/

namespace Sys2Proof.Machine

def step (s : State) : Host.Outcome State Fault Refusal :=
  if s.state = .running then cycle s else .next s.enterRun

/-- Words stored one after another from an address on. -/
def Memory.store (m : Memory) : Nat → List Word → Memory
  | _, [] => m
  | a, w :: ws => Memory.store (if a < memWords then m.write a w else m) (a + 1) ws

/-- The state in which the very next step fetches and runs the instruction whose bits are `w` (numbered as the opcode
table numbers them): its words stored from `ip` on, and the machine `Running`, as the caller's image load and `run()`
would leave it (log entry 4). -/
def State.withFetchWord (s : State) (nbits w : Nat) : State :=
  { s with mem := s.mem.store s.ip.toNat (tableWords (w % 2 ^ nbits)), state := .running }

end Sys2Proof.Machine
end

