-- ==== Sys2Proof/Machine/Caller.lean ====
section
/-! DEFINITION. The caller-facing interface (spec/49_run_loop_host.md R118, R123 to R128) and the image load
(spec/70_reset_and_hazards.md R160, R161). Each operation is one transaction on the machine record; while a run is in
progress none can occur (R123, decision D20). -/

namespace Sys2Proof.Machine

/-! ### Reset and image load -/

/-- The words of an image: little-endian pairs of bytes, an odd trailing byte discarded (R161, R162). -/
def imageWords : List Byte → List Word
  | lo :: hi :: bytes => (hi ++ lo) :: imageWords bytes
  | [_] => []
  | [] => []

/-- `reset(image)` with the image given as words (R160, R161): a fresh machine, or `none` where the load is refused
because the image has more words than memory (decision D17, log entry 18). -/
def State.resetFromWords (config : Config) (words : List Word) : Option State :=
  if words.length ≤ memWords then
    some { State.reset with mem := Memory.ofWords 0 words, config := config }
  else none

/-- `reset(image)` with the image given as bytes (R160, R161). -/
def State.resetFrom (config : Config) (image : List Byte) : Option State :=
  State.resetFromWords config (imageWords image)

/-! ### Running -/

/-- The loop of `run()`: steps while `Running` (R118), at most `fuel` of them. -/
def runLoop : Nat → State → Result
  | 0, s => .next s
  | fuel + 1, s =>
    if s.state = .running then
      match cycle s with
      | .next t => runLoop fuel t
      | .fault r => .fault r
      | .refused r => .refused r
    else .next s

/-- `run()` (R118). The fuel is one more than the number of steps the cycle ceiling leaves (R121). -/
def run (s : State) : Result :=
  runLoop (s.config.cycleCeiling - s.cycles + 1) s.enterRun

/-! ### Input, output, introspection -/

/-- `append_input_word(w)` (R124). -/
def appendInputWord (w : Word) (s : State) : State := s.inqAppend w

/-- `drain_output()`: what it returns, as character codes (R125, decision D15, log entry 17). -/
def drainedOutput (s : State) : List Byte := s.outbuf

/-- `drain_output()`: what it leaves (R125). -/
def drainOutput (s : State) : State := { s with outbuf := [] }

/-- A line of text as input words: one word per character code, then the newline word 10 (R127, decision D16, log
entry 17). -/
def lineWords (codes : List Word) : List Word := codes ++ [10#16]

/-- The caller appends the words of a line, one operation each. -/
def appendInputWords : List Word → State → State
  | [], s => s
  | w :: ws, s => appendInputWords ws (appendInputWord w s)

/-- The caller's operations (R123). -/
inductive CallerOp where
  | run
  | appendInputWord (w : Word)
  | drainOutput
  | state
  | cycleCount
  | instructionPointer
  | reset (image : List Byte)
  deriving DecidableEq, Repr

/-- What an operation returns to the caller. -/
inductive Reply where
  | nothing
  | output (codes : List Byte)
  | state (e : ExecState)
  | cycleCount (n : Nat)
  | instructionPointer (a : Word)
  /-- The image was refused: no new machine (decision D17). -/
  | refusedImage
  deriving DecidableEq, Repr

/-- One operation of the caller: its reply and the machine after it, or `none` where it cannot occur, which is while
the machine is `Running` (the table of R128). -/
def perform (op : CallerOp) (s : State) : Option (Reply × Result) :=
  if s.state = .running then none
  else
    match op with
    | .run => some (.nothing, run s)
    | .appendInputWord w => some (.nothing, .next (appendInputWord w s))
    | .drainOutput => some (.output (drainedOutput s), .next (drainOutput s))
    | .state => some (.state s.state, .next s)
    | .cycleCount => some (.cycleCount s.cycles, .next s)
    | .instructionPointer => some (.instructionPointer s.ip, .next s)
    | .reset image =>
      match State.resetFrom s.config image with
      | some fresh => some (.nothing, .next fresh)
      | none => some (.refusedImage, .next s)

end Sys2Proof.Machine
end

