-- ==== Sys2Proof/Safety.lean ====
section
/-! DEFINITION. What counts as a good end, a fault and a safe state (spec/60_exceptions.md R157; spec/10_state.md R18,
R28), in the terms the statements use. -/

namespace Sys2Proof.Machine

/-- `Halted` and `Errored` are terminal (R16, R120). -/
def ExecState.terminal : ExecState → Bool
  | .initialized => false
  | .running => false
  | .waitingForInput => false
  | .errored _ => true
  | .halted => true

/-- The "no fault" predicate: the state is not `Errored` (R157). -/
def State.noFault (s : State) : Prop := ∀ c, s.state ≠ .errored c

/-- `Halted` is the only good final state (R157). -/
def State.completed (s : State) : Prop := s.state = .halted

/-- `0 <= cycles <= CYCLE_CEILING` always, and below it while the machine can still run (R18, R115). -/
def State.withinBudget (s : State) : Prop :=
  s.cycles ≤ s.config.cycleCeiling ∧ (s.state.terminal = false → s.cycles < s.config.cycleCeiling)

/-! ### Frames: what an instruction or a step leaves unchanged -/

/-- Everything a program could have changed is as it was: registers, memory, stack, queue, buffer, and the
configuration. Only `ip`, `cycles` and `state` may differ (R116). -/
def State.sameData (s t : State) : Prop :=
  (∀ i, t.getReg i = s.getReg i) ∧ (∀ a, t.memRead a = s.memRead a) ∧ t.stack = s.stack ∧ t.inq = s.inq ∧
    t.outbuf = s.outbuf ∧ t.config = s.config

/-- The stack, the queue, the buffer, `ip`, `cycles`, `state` and the configuration are as they were. -/
def State.sameElsewhere (s t : State) : Prop :=
  t.stack = s.stack ∧ t.inq = s.inq ∧ t.outbuf = s.outbuf ∧ t.ip = s.ip ∧ t.cycles = s.cycles ∧ t.state = s.state ∧
    t.config = s.config

/-- Nothing but register `r` differs: every other register, every memory word and everything else is as it was. -/
def State.onlyRegister (r : Fin 8) (s t : State) : Prop :=
  (∀ j, j ≠ r → t.getReg j = s.getReg j) ∧ (∀ a, t.memRead a = s.memRead a) ∧ State.sameElsewhere s t

/-- Nothing but the memory word at address `a` differs. -/
def State.onlyMemoryAt (a : Word) (s t : State) : Prop :=
  (∀ b, b ≠ a → t.memRead b = s.memRead b) ∧ (∀ j, t.getReg j = s.getReg j) ∧ State.sameElsewhere s t

/-- Error `c` was taken: `state` records it and nothing else differs (R136, R146). -/
def State.raised (c : Cause) (s t : State) : Prop :=
  t.state = .errored c ∧ t.ip = s.ip ∧ t.cycles = s.cycles ∧ State.sameData s t

/-- The words `ws` stand in memory from address `a` on, all of them below 32768. -/
def State.holdsAt (s : State) (a : Nat) (ws : List Word) : Prop :=
  ∀ k w, ws[k]? = some w → a + k < 32768 ∧ s.mem.read (a + k) = w

end Sys2Proof.Machine
end

