-- ==== Sys2Proof/Certificates/Slice0/Obligations.lean ====
section
/-! DEFINITION. The statements for the provers, in the order of OBLIGATIONS.json. In a statement about `exec` the state
`s` is the one the executor is given (spec/00_scope.md R8): `s.ip` is the post-decode value a0 + 1 + arity, and the
instruction has been counted. So "`t.ip = s.ip`" reads "`ip` stays a0 + 1 + arity". -/

open Sys2Proof Sys2Proof.Machine

/-- Instruction `i` with destination operand `dst` writes a word that meets `good` to its destination register and
changes nothing else; with a literal destination it raises `WriteToImmediate` and writes nothing. In both cases `exec`
answers a next state. -/
def Sys2Proof.Claims.writesDestination (i : Instr) (dst : Operand) (good : Word → Prop) (s : State) : Prop :=
  (∀ r, dst = .reg r → ∃ t, exec i s = .next t ∧ good (t.getReg r) ∧ State.onlyRegister r s t) ∧
  (∀ l, dst = .lit l → ∃ t, exec i s = .next t ∧ State.raised (.writeToImmediate l) s t)

/-! ### The instructions -/

/-- R66: the whole word of the source goes to the destination register. -/
def Obligations.SetMovesWholeWord : Prop :=
  ∀ (s : State) (dst src : Operand),
    encode (.set dst src) = [1#16, encodeOperand dst, encodeOperand src] ∧
    Claims.writesDestination (.set dst src) dst (fun w => w = s.val src) s

/-- push, spec/40_set_stack.md. The full stack is the spec's own decision D4 (log entry 10). -/
def Obligations.PushAddsTopEntry : Prop :=
  ∀ (s : State) (src : Operand),
    encode (.push src) = [2#16, encodeOperand src] ∧
    (s.stackFull = false → ∃ t, exec (.push src) s = .next t ∧ t.stack = s.val src :: s.stack ∧
      State.sameElsewhere { s with stack := t.stack } t ∧
      (∀ j, t.getReg j = s.getReg j) ∧ (∀ a, t.memRead a = s.memRead a)) ∧
    (s.stackFull = true → ∃ t, exec (.push src) s = .next t ∧ State.raised .stackOverflow s t) ∧
    (s.stackFull = true ↔ ∃ n, s.config.stackCapacity = some n ∧ n ≤ s.stack.length)

/-- pop, spec/40_set_stack.md. The order of the two checks, and that a failing pop removes nothing, are the spec's own
decision D12 (log entry 14). -/
def Obligations.PopTakesTopEntry : Prop :=
  ∀ (s : State) (dst : Operand),
    encode (.pop dst) = [3#16, encodeOperand dst] ∧
    (s.stack = [] → ∃ t, exec (.pop dst) s = .next t ∧ State.raised .stackUnderflow s t) ∧
    (∀ v rest, s.stack = v :: rest →
      (∀ r, dst = .reg r → ∃ t, exec (.pop dst) s = .next t ∧ t.getReg r = v ∧ t.stack = rest ∧
        State.onlyRegister r { s with stack := rest } t) ∧
      (∀ l, dst = .lit l → ∃ t, exec (.pop dst) s = .next t ∧ State.raised (.writeToImmediate l) s t))

/-- eq, spec/41_compare.md. The comparison of whole words is the spec's own decision D3 (log entry 9). -/
def Obligations.EqWritesOneOrZero : Prop :=
  ∀ (s : State) (dst a b : Operand),
    encode (.eq dst a b) = [4#16, encodeOperand dst, encodeOperand a, encodeOperand b] ∧
    Claims.writesDestination (.eq dst a b) dst (fun w => w = if s.val a = s.val b then 1#16 else 0#16) s

/-- gt, spec/41_compare.md: unsigned, strict, a the second encoded operand and b the third. The comparison of whole words
is the spec's own decision D3 (log entry 9). -/
def Obligations.GtComparesUnsignedStrictly : Prop :=
  ∀ (s : State) (dst a b : Operand),
    encode (.gt dst a b) = [5#16, encodeOperand dst, encodeOperand a, encodeOperand b] ∧
    Claims.writesDestination (.gt dst a b) dst
      (fun w => w = if (s.val b).toNat < (s.val a).toNat then 1#16 else 0#16) s

/-- R75: the target goes to `ip`; nothing else changes, and no later increment follows. -/
def Obligations.JmpSetsInstructionPointer : Prop :=
  ∀ (s : State) (target : Operand),
    encode (.jmp target) = [6#16, encodeOperand target] ∧
    ∃ t, exec (.jmp target) s = .next t ∧ t.ip = s.val target ∧ t.state = s.state ∧ t.cycles = s.cycles ∧
      State.sameData s t

/-- jump-if-true, spec/42_jumps.md. That the whole word is tested is the spec's own decision D3 (log entry 9). -/
def Obligations.JumpIfTrueJumpsOnNonzero : Prop :=
  ∀ (s : State) (cond target : Operand),
    ∃ t, exec (.jumpIfTrue cond target) s = .next t ∧
      t.ip = (if s.val cond = 0#16 then s.ip else s.val target) ∧ t.state = s.state ∧ t.cycles = s.cycles ∧
      State.sameData s t

/-- jump-if-false, spec/42_jumps.md: only the word 0 jumps. That the whole word is tested is the spec's own decision D3
(log entry 9). -/
def Obligations.JumpIfFalseJumpsOnZero : Prop :=
  ∀ (s : State) (cond target : Operand),
    encode (.jumpIfFalse cond target) = [8#16, encodeOperand cond, encodeOperand target] ∧
    ∃ t, exec (.jumpIfFalse cond target) s = .next t ∧
      t.ip = (if s.val cond = 0#16 then s.val target else s.ip) ∧ t.state = s.state ∧ t.cycles = s.cycles ∧
      State.sameData s t

/-- add, spec/43_arithmetic.md: the exact sum, reduced modulo 32768. Operands of 32768 or more are the spec's own
decision D3 (log entry 9). -/
def Obligations.AddReducesExactSum : Prop :=
  ∀ (s : State) (dst a b : Operand),
    Claims.writesDestination (.add dst a b) dst
      (fun w => w.toNat = ((s.val a).toNat + (s.val b).toNat) % 32768) s

/-- multiply, spec/43_arithmetic.md: the exact product, reduced modulo 32768 (decision D3, log entry 9). -/
def Obligations.MultiplyReducesExactProduct : Prop :=
  ∀ (s : State) (dst a b : Operand),
    encode (.multiply dst a b) = [10#16, encodeOperand dst, encodeOperand a, encodeOperand b] ∧
    Claims.writesDestination (.multiply dst a b) dst
      (fun w => w.toNat = ((s.val a).toNat * (s.val b).toNat) % 32768) s

/-- modulo, spec/43_arithmetic.md. The error of a zero divisor, and that it comes before the destination's, are the
spec's own decisions D11 and D12 (log entries 13 and 14). Operands of 32768 or more, for which alone the last reduction
has an effect, are its decision D3 (log entry 9). -/
def Obligations.ModuloWritesRemainder : Prop :=
  ∀ (s : State) (dst a b : Operand),
    encode (.modulo dst a b) = [11#16, encodeOperand dst, encodeOperand a, encodeOperand b] ∧
    (s.val b = 0#16 → ∃ t, exec (.modulo dst a b) s = .next t ∧ State.raised .moduloByZero s t) ∧
    (s.val b ≠ 0#16 → Claims.writesDestination (.modulo dst a b) dst
      (fun w => w.toNat = (s.val a).toNat % (s.val b).toNat % 32768) s)

/-- and, spec/44_bitwise.md, bit by bit over all 16 bits (decision D3, log entry 9). -/
def Obligations.AndIsBitwise : Prop :=
  ∀ (s : State) (dst a b : Operand),
    encode (.and dst a b) = [12#16, encodeOperand dst, encodeOperand a, encodeOperand b] ∧
    Claims.writesDestination (.and dst a b) dst
      (fun w => ∀ k, w.getLsbD k = ((s.val a).getLsbD k && (s.val b).getLsbD k)) s

/-- or, spec/44_bitwise.md, bit by bit over all 16 bits (decision D3, log entry 9). -/
def Obligations.OrIsBitwise : Prop :=
  ∀ (s : State) (dst a b : Operand),
    encode (.or dst a b) = [13#16, encodeOperand dst, encodeOperand a, encodeOperand b] ∧
    Claims.writesDestination (.or dst a b) dst
      (fun w => ∀ k, w.getLsbD k = ((s.val a).getLsbD k || (s.val b).getLsbD k)) s

/-- not, spec/44_bitwise.md: bits 14..0 are complemented, bit 15 passes through (decision D3, log entry 9). -/
def Obligations.NotComplementsFifteenBits : Prop :=
  ∀ (s : State) (dst a : Operand),
    Claims.writesDestination (.not dst a) dst
      (fun w => (∀ k, k < 15 → w.getLsbD k = !(s.val a).getLsbD k) ∧ w.getLsbD 15 = (s.val a).getLsbD 15) s

/-- read-memory, spec/45_memory_access.md. The address check, and that it comes before the destination's, are the
spec's own decisions D9 and D12 (log entries 12 and 14). -/
def Obligations.ReadMemoryLoadsWord : Prop :=
  ∀ (s : State) (dst addr : Operand),
    encode (.readMemory dst addr) = [15#16, encodeOperand dst, encodeOperand addr] ∧
    (32767 < (s.val addr).toNat → ∃ t, exec (.readMemory dst addr) s = .next t ∧
      State.raised (.addressOutOfRange (s.val addr)) s t) ∧
    ((s.val addr).toNat ≤ 32767 → Claims.writesDestination (.readMemory dst addr) dst
      (fun w => s.memRead (s.val addr) = some w) s)

/-- write-memory, spec/45_memory_access.md: the word stored to is the one at `s.val addr`, and no other word of memory
changes. The address check is the spec's own decision D9 (log entry 12). -/
def Obligations.WriteMemoryStoresWord : Prop :=
  ∀ (s : State) (addr src : Operand),
    (32767 < (s.val addr).toNat → ∃ t, exec (.writeMemory addr src) s = .next t ∧
      State.raised (.addressOutOfRange (s.val addr)) s t) ∧
    ((s.val addr).toNat ≤ 32767 → ∃ t, exec (.writeMemory addr src) s = .next t ∧
      t.memRead (s.val addr) = some (s.val src) ∧ State.onlyMemoryAt (s.val addr) s t)

/-- call, spec/46_call_return.md: `s.ip` is the address of the instruction after the call. The full stack is the spec's
own decision D4 (log entry 10). -/
def Obligations.CallPushesReturnAddress : Prop :=
  ∀ (s : State) (target : Operand),
    encode (.call target) = [17#16, encodeOperand target] ∧
    (s.stackFull = false → ∃ t, exec (.call target) s = .next t ∧ t.ip = s.val target ∧ t.stack = s.ip :: s.stack ∧
      State.sameElsewhere { s with stack := t.stack, ip := t.ip } t ∧
      (∀ j, t.getReg j = s.getReg j) ∧ (∀ a, t.memRead a = s.memRead a)) ∧
    (s.stackFull = true → ∃ t, exec (.call target) s = .next t ∧ State.raised .stackOverflow s t)

/-- return, spec/46_call_return.md: an empty stack is normal completion, and `ip` then stays a0 + 1 (the spec's own
inference from R13). -/
def Obligations.ReturnJumpsOrHalts : Prop :=
  ∀ (s : State),
    encode .ret = [18#16] ∧
    (s.stack = [] → ∃ t, exec .ret s = .next t ∧ t.state = .halted ∧ t.ip = s.ip ∧ t.cycles = s.cycles ∧
      State.sameData s t) ∧
    (∀ v rest, s.stack = v :: rest → ∃ t, exec .ret s = .next t ∧ t.ip = v ∧ t.stack = rest ∧
      State.sameElsewhere { s with stack := rest, ip := v } t ∧
      (∀ j, t.getReg j = s.getReg j) ∧ (∀ a, t.memRead a = s.memRead a))

/-- output, spec/47_io.md: the low 8 bits. That a character is that 8-bit code is the spec's own decision D15 (log entry
17). -/
def Obligations.OutputAppendsLowEightBits : Prop :=
  ∀ (s : State) (src : Operand),
    ∃ t c, exec (.output src) s = .next t ∧ t.outbuf = s.outbuf ++ [c] ∧ c.toNat = (s.val src).toNat % 256 ∧
      State.sameElsewhere { s with outbuf := t.outbuf } t ∧
      (∀ j, t.getReg j = s.getReg j) ∧ (∀ a, t.memRead a = s.memRead a)

/-- input, spec/47_io.md. That the queue is tested before the destination, and that a failing input takes nothing, are
the spec's own decision D12 (log entry 14). `s.ip` is a0 + 2, so that the rewound `ip` is a0. -/
def Obligations.InputTakesOldestOrBlocks : Prop :=
  ∀ (s : State) (dst : Operand),
    encode (.input dst) = [20#16, encodeOperand dst] ∧
    (s.inq = [] → ∃ t, exec (.input dst) s = .next t ∧ t.state = .waitingForInput ∧ t.ip = s.ip - 2#16 ∧
      t.cycles = s.cycles ∧ State.sameData s t) ∧
    (∀ w rest, s.inq = w :: rest →
      (∀ r, dst = .reg r → ∃ t, exec (.input dst) s = .next t ∧ t.getReg r = w ∧ t.inq = rest ∧
        State.onlyRegister r { s with inq := rest } t) ∧
      (∀ l, dst = .lit l → ∃ t, exec (.input dst) s = .next t ∧ State.raised (.writeToImmediate l) s t))

/-- halt, spec/48_halt_noop.md: `Halted`, with `ip` one past the opcode word. -/
def Obligations.HaltEntersHalted : Prop :=
  ∀ (s : State), ∃ t, exec .halt s = .next t ∧ t.state = .halted ∧ t.ip = s.ip ∧ t.cycles = s.cycles ∧
    State.sameData s t

/-- no-op, spec/48_halt_noop.md: no effect beyond the decoder's advance. The word 21 at a0 is one cycle and one word of
advance, also at address 32767, where `ip` becomes 32768 and the next step raises `AddressOutOfRange`. That error's
payload, and the `ip` and `cycles` it leaves, are the spec's own decisions D8, D13 and D24 (log entries 12 and 15). -/
def Obligations.NoopOnlyAdvances : Prop :=
  encode .noop = [21#16] ∧
  (∀ s : State, exec .noop s = .next s) ∧
  (∀ s : State, s.state = .running → s.holdsAt s.ip.toNat [21#16] → s.cycles + 1 < s.config.cycleCeiling →
    ∃ t, step s = .next t ∧ t.ip.toNat = s.ip.toNat + 1 ∧ t.cycles = s.cycles + 1 ∧ t.state = .running ∧
      State.sameData s t ∧
      (s.ip = 32767#16 → t.ip = 32768#16 ∧
        ∃ u, step t = .next u ∧ State.raised (.addressOutOfRange 32768#16) t u))

/-! ### Encoding and decoding -/

/-- R57: the words of the document's own programs decode to the instructions the table names. -/
def Obligations.DocumentedWordsDecode : Prop :=
  decode [0#16] = .instr .halt 1 ∧
  decode [6#16, 3#16] = .instr (.jmp (.lit 3#16)) 2 ∧
  decode [7#16, 2#16, 6#16] = .instr (.jumpIfTrue (.lit 2#16) (.lit 6#16)) 3 ∧
  decode [8#16, 2#16, 10#16] = .instr (.jumpIfFalse (.lit 2#16) (.lit 10#16)) 3 ∧
  decode [14#16, 32768#16, 32767#16] = .instr (.not (.reg 0) (.lit 32767#16)) 3 ∧
  decode [16#16, 6#16, 32768#16] = .instr (.writeMemory (.lit 6#16) (.reg 0)) 3 ∧
  decode [9#16, 32768#16, 32769#16, 88#16] = .instr (.add (.reg 0) (.reg 1) (.lit 88#16)) 4 ∧
  decode [19#16, 32768#16] = .instr (.output (.reg 0)) 2 ∧
  decode [22#16] = .fail (.unknownOpcode 22#16) 1

/-- The literal/register boundary by value and by bits, spec/30_encoding.md section 3. That every operand word is
classified at decode is the spec's own decision D26 (log entry 15). -/
def Obligations.OperandWordClasses : Prop :=
  ∀ v : Word,
    (v.toNat ≤ 32767 → classify v = some (.lit v) ∧ v.getLsbD 15 = false) ∧
    (∀ r : Fin 8, v.toNat = 32768 + r.val → classify v = some (.reg r) ∧ v.extractLsb' 3 13 = 0x1000#13 ∧
      (v.extractLsb' 0 3).toNat = r.val) ∧
    (32776 ≤ v.toNat → classify v = none)

/-- Encode then decode is the identity on well-formed instructions, whatever words follow, and decode then encode is the
identity on the words of a decoded instruction, which is well formed (the spec's own inference in spec/30_encoding.md
section 7). -/
def Obligations.DecodeAndEncodeAreInverse : Prop :=
  (∀ (i : Instr) (rest : List Word), i.wf = true → decode (encode i ++ rest) = .instr i (encode i).length) ∧
  (∀ (ws : List Word) (i : Instr) (n : Nat), decode ws = .instr i n →
    i.wf = true ∧ ws.take n = encode i ∧ n = (encode i).length)

/-- The decoder's result depends on no word beyond those it has read, and it reads at most four
(the spec's own inference in spec/30_encoding.md section 7). -/
def Obligations.DecoderReadsNoFurther : Prop :=
  ∀ (ws rest : List Word),
    (∀ i n, decode ws = .instr i n → n ≤ 4 ∧ decode (ws.take n ++ rest) = .instr i n) ∧
    (∀ w n, decode ws = .fail (.unknownOpcode w) n → n = 1 ∧ decode (ws.take n ++ rest) = .fail (.unknownOpcode w) n) ∧
    (∀ v n, decode ws = .fail (.invalidOperand v) n →
      n ≤ 4 ∧ decode (ws.take n ++ rest) = .fail (.invalidOperand v) n)

/-- Decoding is a function of `ip` and of the memory words at `ip` to `ip + 3` only
(the spec's own inference in spec/30_encoding.md section 7). -/
def Obligations.DecodingReadsOnlyMemoryAtIp : Prop :=
  ∀ s t : State, t.ip = s.ip →
    (∀ k, k < 4 → s.ip.toNat + k < 32768 → t.mem.read (s.ip.toNat + k) = s.mem.read (s.ip.toNat + k)) →
    t.decoded = s.decoded

/-! ### A step -/

/-- When the words at `ip` decode to an instruction and the ceiling is not reached, the step is `exec` of it, with `ip`
past its words and one more cycle counted (spec/49_run_loop_host.md section 2). -/
def Obligations.StepRunsDecodedInstruction : Prop :=
  ∀ (s : State) (i : Instr) (n : Nat), s.state = .running → s.decoded = .instr i n →
    s.cycles + 1 < s.config.cycleCeiling →
    step s = exec i { s with ip := s.ip + BitVec.ofNat 16 n, cycles := s.cycles + 1 }

/-- The same from the words in memory: where memory holds the encoding of a well-formed instruction at `ip`, the step
executes exactly that instruction. -/
def Obligations.StepRunsEncodedInstruction : Prop :=
  ∀ (s : State) (i : Instr), s.state = .running → i.wf = true → s.holdsAt s.ip.toNat (encode i) →
    s.cycles + 1 < s.config.cycleCeiling →
    step s = exec i { s with ip := s.ip + BitVec.ofNat 16 (encode i).length, cycles := s.cycles + 1 }

/-- The increment that reaches the ceiling is counted, `ip` is past the decoded instruction, and the instruction is not
executed (spec/49_run_loop_host.md section 2; "reaching" is the spec's own decision D6, the `ip` left its D13, log
entries 6 and 15). -/
def Obligations.CeilingStopsPendingInstruction : Prop :=
  ∀ (s : State) (i : Instr), s.state = .running → i.wf = true → s.holdsAt s.ip.toNat (encode i) →
    s.cycles + 1 = s.config.cycleCeiling →
    ∃ t, step s = .next t ∧ t.state = .errored .cycleCeiling ∧ t.cycles = s.config.cycleCeiling ∧
      t.ip = s.ip + BitVec.ofNat 16 (encode i).length ∧ State.sameData s t

/-- R52, R138: an opcode word above 21, whatever stands after it; `ip` and `cycles` are as these two rules say. -/
def Obligations.UnknownOpcodeStops : Prop :=
  ∀ (s : State) (w : Word), s.state = .running → s.holdsAt s.ip.toNat [w] → 21 < w.toNat →
    ∃ t, step s = .next t ∧ t.state = .errored (.unknownOpcode w) ∧ t.ip = s.ip + 1#16 ∧ t.cycles = s.cycles ∧
      State.sameData s t

/-- The first operand word of 32776 or more, the `k`-th (the operand words before it being valid), ends the decode; `ip`
is one past that word, and nothing is counted (spec/60_exceptions.md section 1; that this happens at decode is the
spec's own decision D26, the `ip` left its D13, log entry 15). -/
def Obligations.InvalidOperandStops : Prop :=
  ∀ (s : State) (w v : Word) (n : Nat) (before : List Word), s.state = .running →
    arity w.toNat = some n → before.length < n → (∀ u ∈ before, u.toNat < 32776) → 32776 ≤ v.toNat →
    s.holdsAt s.ip.toNat (w :: (before ++ [v])) →
    ∃ t, step s = .next t ∧ t.state = .errored (.invalidOperand v) ∧
      t.ip.toNat = s.ip.toNat + before.length + 2 ∧ t.cycles = s.cycles ∧ State.sameData s t

/-- A fetch beyond address 32767, of the opcode word or of an operand word; the cases and the `ip` left are the spec's own
decisions D8 and D13 (log entries 12 and 15). -/
def Obligations.FetchBeyondMemoryStops : Prop :=
  (∀ s : State, s.state = .running → 32767 < s.ip.toNat →
    ∃ t, step s = .next t ∧ State.raised (.addressOutOfRange s.ip) s t) ∧
  (∀ (s : State) (w : Word) (n : Nat) (there : List Word), s.state = .running →
    arity w.toNat = some n → there.length < n → (∀ u ∈ there, u.toNat < 32776) →
    s.holdsAt s.ip.toNat (w :: there) → s.ip.toNat + there.length + 1 = 32768 →
    ∃ t, step s = .next t ∧ t.state = .errored (.addressOutOfRange 32768#16) ∧ t.ip = 32768#16 ∧
      t.cycles = s.cycles ∧ State.sameData s t)

/-- R175: every step has a successor, and exactly one, from every running state and so from every reachable one; and no
register is unwritten at reset: each reads as 0. -/
def Obligations.EveryStepHasOneSuccessor : Prop :=
  (∀ s : State, s.state = .running → ∃ t, step s = .next t ∧ ∀ u, step s = .next u → u = t) ∧
  (∀ r, State.reset.getReg r = 0#16)

/-! ### Rules about the whole machine -/

/-- What each instruction leaves unchanged, over all of them: a register that is not its destination register; memory, but
for write-memory's word; the stack, but for push, pop, call and return; the input queue, but for input; the output
buffer, but for output; `ip`, but for the transfers of control and a blocked input; `state`, unless it halts, blocks or
errs; and the counter and the configuration always. -/
def Obligations.EveryInstructionKeepsItsFrame : Prop :=
  ∀ (i : Instr) (s t : State), exec i s = .next t →
    (∀ r, i.destination ≠ some (.reg r) → t.getReg r = s.getReg r) ∧
    ((∀ addr src, i ≠ .writeMemory addr src) → ∀ a, t.memRead a = s.memRead a) ∧
    (∀ addr src, i = .writeMemory addr src → ∀ a, a ≠ s.val addr → t.memRead a = s.memRead a) ∧
    ((∀ o, i ≠ .push o) → (∀ o, i ≠ .pop o) → (∀ o, i ≠ .call o) → i ≠ .ret → t.stack = s.stack) ∧
    ((∀ o, i ≠ .input o) → t.inq = s.inq) ∧
    ((∀ o, i ≠ .output o) → t.outbuf = s.outbuf) ∧
    ((∀ o, i ≠ .jmp o) → (∀ c o, i ≠ .jumpIfTrue c o) → (∀ c o, i ≠ .jumpIfFalse c o) → (∀ o, i ≠ .call o) →
      i ≠ .ret → (∀ o, i ≠ .input o) → t.ip = s.ip) ∧
    (t.state = s.state ∨ t.state = .halted ∨ t.state = .waitingForInput ∨ ∃ c, t.state = .errored c) ∧
    t.cycles = s.cycles ∧ t.config = s.config

/-- R142: `StackUnderflow` is raised by pop on an empty stack, and by nothing else; not by return. -/
def Obligations.UnderflowOnlyFromEmptyPop : Prop :=
  (∀ (s : State) (dst : Operand), s.stack = [] →
    ∃ t, exec (.pop dst) s = .next t ∧ State.raised .stackUnderflow s t) ∧
  (∀ (i : Instr) (s t : State), exec i s = .next t → s.state ≠ .errored .stackUnderflow →
    t.state = .errored .stackUnderflow → s.stack = [] ∧ ∃ dst, i = .pop dst) ∧
  (∀ s : State, s.stack = [] → ∃ t, exec .ret s = .next t ∧ t.state = .halted)

/-- Which instruction raises which cause at execute time, and when (spec/60_exceptions.md section 1; the causes' names and
the order of the checks are the spec's own decisions D12 and D14, log entries 14 and 16). -/
def Obligations.ExecuteErrorsHaveTheirCause : Prop :=
  ∀ (i : Instr) (s t : State) (c : Cause), exec i s = .next t → (∀ d, s.state ≠ .errored d) →
    t.state = .errored c →
    (∃ v, c = .writeToImmediate v ∧ i.destination = some (.lit v)) ∨
    (c = .stackUnderflow ∧ s.stack = [] ∧ ∃ dst, i = .pop dst) ∨
    (c = .moduloByZero ∧ ∃ dst a b, i = .modulo dst a b ∧ s.val b = 0#16) ∨
    (c = .stackOverflow ∧ s.stackFull = true ∧ ∃ o, i = .push o ∨ i = .call o) ∨
    (∃ o p, (i = .readMemory p o ∨ i = .writeMemory o p) ∧ c = .addressOutOfRange (s.val o) ∧
      32767 < (s.val o).toNat)

/-- A step that ends in `Errored` has written no register, memory word, stack entry, queue entry or output character: only
`ip`, `cycles` and `state` differ (the spec's own decision D12, log entry 14). -/
def Obligations.FailingStepWritesNothing : Prop :=
  ∀ (s t : State) (c : Cause), step s = .next t → t.state = .errored c → State.sameData s t

/-- What one step can change in total (the spec's own inference in spec/49_run_loop_host.md section 2): of the registers,
the destination register of the decoded instruction; of memory, the word at the address that a decoded write-memory
resolves; and one entry of the stack, of the queue and of the buffer. -/
def Obligations.StepChangesAtMostOneOfEach : Prop :=
  ∀ s t : State, step s = .next t →
    (∀ j, (∀ i n, s.decoded = .instr i n → i.destination ≠ some (.reg j)) → t.getReg j = s.getReg j) ∧
    (∀ b, (∀ addr src n, s.decoded = .instr (.writeMemory addr src) n → b ≠ s.val addr) →
      t.memRead b = s.memRead b) ∧
    (t.stack = s.stack ∨ (∃ v, t.stack = v :: s.stack) ∨ ∃ v, s.stack = v :: t.stack) ∧
    (t.inq = s.inq ∨ ∃ w, s.inq = w :: t.inq) ∧
    (t.outbuf = s.outbuf ∨ ∃ c, t.outbuf = s.outbuf ++ [c]) ∧
    (t.cycles = s.cycles ∨ t.cycles = s.cycles + 1) ∧
    t.config = s.config

/-- The transitions of the execution state, complete: a running machine stays running, halts, waits or errs; an initialized
or waiting one becomes running by the caller's `run()`, which is what `step` is there (log entry 3), whether or not
input came (the spec's own decision D19, log entry 3); a terminal one stays as it is. -/
def Obligations.StateTransitionsAreTheListedOnes : Prop :=
  ∀ s : State, ∃ t, step s = .next t ∧
    match s.state with
    | .initialized => t = { s with state := .running }
    | .waitingForInput => t = { s with state := .running }
    | .running => t.state ≠ .initialized ∧
        (t.state = .waitingForInput →
          (∃ dst, s.decoded = .instr (.input dst) 2) ∧ s.inq = [] ∧ t.inq = [] ∧ t.ip = s.ip) ∧
        (t.state = .halted → s.decoded = .instr .halt 1 ∨ (s.decoded = .instr .ret 1 ∧ s.stack = []))
    | .halted => t = s
    | .errored _ => t = s

/-- R120: a run invocation on a terminal machine executes nothing and changes nothing at all. -/
def Obligations.RunOnTerminalMachineIsNoOp : Prop :=
  ∀ s : State, (s.state = .halted ∨ ∃ c, s.state = .errored c) →
    run s = .next s ∧ perform .run s = some (.nothing, .next s)

/-- The program observes neither the output buffer nor the cycle counter (spec/10_state.md section 9): with another
buffer or another count in the state, every instruction does the same to all the rest. -/
def Obligations.ProgramCannotObserveOutputOrCount : Prop :=
  ∀ (i : Instr) (s t : State) (o : List Byte) (n : Nat), exec i s = .next t →
    ∃ o', exec i { s with outbuf := o, cycles := n } = .next { t with outbuf := o', cycles := n }

/-! ### Invariants -/

/-- Every step keeps memory in its canonical form (log entry 1). -/
def Obligations.StepKeepsMemoryCanonical : Prop :=
  ∀ s t : State, s.mem.wf → step s = .next t → t.mem.wf

/-- Two memories in the canonical form that read the same at every address are the same list (log entry 1). -/
def Obligations.CanonicalMemoriesAreDetermined : Prop :=
  ∀ m n : Memory, m.wf → n.wf → (∀ a, a < 32768 → m.read a = n.read a) → m = n

/-- The cycle counter never exceeds the ceiling, and is below it as long as the machine can still run (the boundary is the
spec's own decision D6, log entry 6). -/
def Obligations.StepKeepsCyclesWithinBudget : Prop :=
  ∀ s t : State, s.withinBudget → step s = .next t → t.withinBudget

/-- The stack never holds more entries than instructions have been counted, and the ceiling's own count executes none;
nor does the output buffer (the spec's own inference in spec/70_reset_and_hazards.md section 5). -/
def Obligations.StackAndOutputStayBoundedByCycles : Prop :=
  ∀ s t : State, s.stack.length ≤ s.cycles → s.outbuf.length ≤ s.cycles → step s = .next t →
    t.stack.length ≤ t.cycles ∧ t.outbuf.length ≤ t.cycles ∧
    (s.state = .running → t.state = .errored .cycleCeiling → t.stack.length < t.cycles ∧ t.outbuf.length < t.cycles)

/-- Registers, stack and queue hold values below 32768 as long as no read-memory loads a larger word and no call is the
instruction whose last word is at 32767 (the spec's own inference in spec/10_state.md section 11; the words larger
than that are its decision D2, log entry 9). -/
def Obligations.FifteenBitValuesStayFifteenBit : Prop :=
  ∀ s t : State, (∀ r, (s.getReg r).toNat < 32768) → (∀ v ∈ s.stack, v.toNat < 32768) →
    (∀ w ∈ s.inq, w.toNat < 32768) →
    (∀ dst addr n v, s.decoded = .instr (.readMemory dst addr) n → s.memRead (s.val addr) = some v → v.toNat < 32768) →
    (∀ target n, s.decoded = .instr (.call target) n → s.ip.toNat < 32766) →
    step s = .next t →
    (∀ r, (t.getReg r).toNat < 32768) ∧ (∀ v ∈ t.stack, v.toNat < 32768) ∧ (∀ w ∈ t.inq, w.toNat < 32768)

/-- The reset state meets the invariants above, with every register, word and list at the value spec/10_state.md section 10
gives; those of `ip`, `cycles`, the stack, the queue and the buffer are the spec's own decision D18, and the empty image
is the model's choice (log entry 7). The default configuration is that of spec/00_scope.md section 4: the ceiling
5,000,000 and its boundary are decision D6 (log entry 6), the unbounded stack, queue and buffer are decisions D4 and D5 (log
entry 10). The canonical form of memory is the model's own (log entry 1), the configuration in State too (log entry 2). -/
def Obligations.ResetStateIsAsListed : Prop :=
  (∀ r, State.reset.getReg r = 0#16) ∧ (∀ a : Word, a.toNat ≤ 32767 → State.reset.memRead a = some 0#16) ∧
  State.reset.ip = 0#16 ∧ State.reset.stack = [] ∧ State.reset.state = .initialized ∧ State.reset.cycles = 0 ∧
  State.reset.inq = [] ∧ State.reset.outbuf = [] ∧ State.reset.config.cycleCeiling = 5000000 ∧
  State.reset.config.stackCapacity = none ∧ State.reset.config.inqCapacity = .unbounded ∧
  State.reset.config.outbufCapacity = .unbounded ∧ State.reset.mem.wf ∧ State.reset.withinBudget

/-! ### Memory, stack and the arithmetic's laws -/

/-- A store is what the next fetch decodes (spec/20_memory.md section 7), whichever word of the next instruction it is. After
a write-memory: where the stored word, as the `k`-th word at `ip`, completes the encoding of a well-formed instruction
whose other words stand in memory, the next step executes that instruction; where it is the opcode word and above 21, or
an operand word of 32776 or more after valid ones, the next step errs on it (the error of an operand word at decode is
the spec's own decision D26, log entry 15). -/
def Obligations.StoreIsSeenByNextFetch : Prop :=
  ∀ (s : State) (addr src : Operand), s.state = .running → (s.val addr).toNat ≤ 32767 →
    s.cycles + 1 < s.config.cycleCeiling →
    ∃ t, exec (.writeMemory addr src) s = .next t ∧
      (∀ (i : Instr) (k : Nat), i.wf = true → (s.val addr).toNat = s.ip.toNat + k →
        (encode i)[k]? = some (s.val src) →
        (∀ j w, j ≠ k → (encode i)[j]? = some w → s.ip.toNat + j < 32768 ∧ s.mem.read (s.ip.toNat + j) = w) →
        step t = exec i { t with ip := t.ip + BitVec.ofNat 16 (encode i).length, cycles := t.cycles + 1 }) ∧
      (s.val addr = s.ip → 21 < (s.val src).toNat →
        ∃ u, step t = .next u ∧ u.state = .errored (.unknownOpcode (s.val src))) ∧
      (∀ (w : Word) (n : Nat) (before : List Word), arity w.toNat = some n → before.length < n →
        (∀ v ∈ before, v.toNat < 32776) → s.holdsAt s.ip.toNat (w :: before) →
        (s.val addr).toNat = s.ip.toNat + before.length + 1 → 32776 ≤ (s.val src).toNat →
        ∃ u, step t = .next u ∧ u.state = .errored (.invalidOperand (s.val src)))

/-- Memory's two primitives (spec/20_memory.md section 2): a read gives the word last written there, a write changes no
other word and nothing else. That an address of 32768 or more is refused, with no access made, is the spec's own
decisions D8 and D9 (log entry 12); the canonical form that a write keeps is the model's own (log entry 1). -/
def Obligations.MemoryReadsLastWrite : Prop :=
  ∀ (s : State) (a v : Word),
    (a.toNat ≤ 32767 → ∃ t, s.memWrite a v = some t ∧ t.memRead a = some v ∧ State.onlyMemoryAt a s t ∧
      (s.mem.wf → t.mem.wf)) ∧
    (32767 < a.toNat → s.memRead a = none ∧ s.memWrite a v = none)

/-- The stack discipline (the spec's own inference in spec/40_set_stack.md): after push(a), push(b), pop(p), pop(q) the
registers hold b and a, and the stack is as before. -/
def Obligations.PushesArePoppedInReverse : Prop :=
  ∀ (s : State) (a b : Operand) (p q : Fin 8), s.config.stackCapacity = none →
    ∃ s1 s2 s3 s4, exec (.push a) s = .next s1 ∧ exec (.push b) s1 = .next s2 ∧
      exec (.pop (.reg p)) s2 = .next s3 ∧ exec (.pop (.reg q)) s3 = .next s4 ∧
      s4.stack = s.stack ∧ s4.getReg q = s.val a ∧ (p ≠ q → s4.getReg p = s.val b) ∧
      (∀ j, j ≠ p → j ≠ q → s4.getReg j = s.getReg j) ∧ ∀ m, s4.memRead m = s.memRead m

/-- Matching call and return (the spec's own inference in spec/46_call_return.md): a return with the stack the call left
goes on after the call, with the stack as before it. -/
def Obligations.ReturnUndoesCall : Prop :=
  ∀ (s : State) (target : Operand), s.stackFull = false →
    ∃ t, exec (.call target) s = .next t ∧ t.ip = s.val target ∧
      ∀ u : State, u.stack = t.stack → ∃ v, exec .ret u = .next v ∧ v.ip = s.ip ∧ v.stack = s.stack ∧
        v.state = u.state

/-- The algebra of add, multiply and modulo over all words, on the ALU's own functions (the spec's own inference in
spec/43_arithmetic.md; words of 32768 or more are its decision D3, log entry 9). -/
def Obligations.ArithmeticLaws : Prop :=
  ∀ p q r : Word,
    aluAdd p q = aluAdd q p ∧ aluMultiply p q = aluMultiply q p ∧
    aluAdd (aluAdd p q) r = aluAdd p (aluAdd q r) ∧
    aluMultiply (aluMultiply p q) r = aluMultiply p (aluMultiply q r) ∧
    aluMultiply p (aluAdd q r) = aluAdd (aluMultiply p q) (aluMultiply p r) ∧
    (aluAdd p 0#16).toNat = p.toNat % 32768 ∧
    (aluAdd p q).toNat < 32768 ∧ (aluMultiply p q).toNat < 32768 ∧ (aluModulo p q).toNat < 32768

/-- The laws of and, or and not over 15-bit values, on the ALU's own functions (the spec's own inference in
spec/44_bitwise.md). -/
def Obligations.BitwiseLaws : Prop :=
  ∀ p q : Word, p.toNat ≤ 32767 → q.toNat ≤ 32767 →
    aluNot (aluAnd p q) = aluOr (aluNot p) (aluNot q) ∧ aluNot (aluOr p q) = aluAnd (aluNot p) (aluNot q) ∧
    aluAnd p (aluNot p) = 0#16 ∧ aluOr p (aluNot p) = 32767#16 ∧ aluAdd p (aluNot p) = 32767#16 ∧
    (aluNot p).toNat = 32767 - p.toNat ∧ (aluAnd p q).toNat ≤ 32767 ∧ (aluOr p q).toNat ≤ 32767

/-! ### The caller -/

/-- `run()` (spec/49_run_loop_host.md section 3) enters `Running` from `Initialized` or `WaitingForInput`, steps as long as
the machine is running, and returns at the first state that is not, which is waiting, halted or errored. That it enters
from `WaitingForInput` with an empty queue too is the spec's own decision D19 (log entry 3). -/
def Obligations.RunStepsUntilNotRunning : Prop :=
  ∀ s : State,
    (s.state = .initialized ∨ s.state = .waitingForInput → s.enterRun = { s with state := .running }) ∧
    ∃ (k : Nat) (t : State), run s = .next t ∧ core.run k s.enterRun = .next t ∧
      (∀ j, j < k → ∃ u : State, core.run j s.enterRun = .next u ∧ u.state = .running) ∧
      (t.state = .waitingForInput ∨ t.state = .halted ∨ ∃ c, t.state = .errored c)

/-- The suspend and resume protocol at step level (spec/47_io.md): an `input` that finds the queue empty leaves the machine
waiting at the instruction's start with one cycle counted; resumed with a word appended, it takes that word, and resumed
without one, it blocks again (the spec's own decision D19; the step out of `WaitingForInput` is log entry 3). -/
def Obligations.BlockedInputRetriesAfterResume : Prop :=
  ∀ (s : State) (r : Fin 8), s.state = .running → s.holdsAt s.ip.toNat (encode (.input (.reg r))) → s.inq = [] →
    s.cycles + 2 < s.config.cycleCeiling →
    ∃ t, step s = .next t ∧ t = { s with state := .waitingForInput, cycles := s.cycles + 1 } ∧
      (∀ w : Word, ∃ u v, step (appendInputWord w t) = .next u ∧ step u = .next v ∧ v.getReg r = w ∧ v.inq = [] ∧
        v.state = .running ∧ v.ip.toNat = s.ip.toNat + 2 ∧ v.cycles = s.cycles + 2 ∧
        (∀ j, j ≠ r → v.getReg j = s.getReg j) ∧ ∀ a, v.memRead a = s.memRead a) ∧
      (∃ u v, step t = .next u ∧ step u = .next v ∧
        v = { s with state := .waitingForInput, cycles := s.cycles + 2 })

/-- Appending and draining (spec/49_run_loop_host.md section 4): words queue in order and nothing else changes; a drain
returns the characters oldest first and leaves the buffer empty, so that a second one returns none. The characters are
codes (the spec's own decision D15, log entry 17). -/
def Obligations.AppendAndDrainTouchOnlyTheirQueue : Prop :=
  ∀ (s : State) (w : Word) (codes : List Word),
    appendInputWord w s = { s with inq := s.inq ++ [w] } ∧
    appendInputWords codes s = { s with inq := s.inq ++ codes } ∧
    drainedOutput s = s.outbuf ∧ drainOutput s = { s with outbuf := [] } ∧ drainedOutput (drainOutput s) = []

/-- R126: the introspection operations return `state`, `cycles` and `ip`, and change nothing, in every state that is not
`Running`; and no operation exposes registers, the stack, memory or the input queue: two machines that agree in
`state`, `cycles`, `ip` and output buffer answer every operation with the same reply. -/
def Obligations.IntrospectionIsReadOnly : Prop :=
  (∀ s : State, s.state ≠ .running →
    perform .state s = some (.state s.state, .next s) ∧
    perform .cycleCount s = some (.cycleCount s.cycles, .next s) ∧
    perform .instructionPointer s = some (.instructionPointer s.ip, .next s)) ∧
  (∀ (op : CallerOp) (s t : State), t.state = s.state → t.cycles = s.cycles → t.ip = s.ip → t.outbuf = s.outbuf →
    (perform op t).map Prod.fst = (perform op s).map Prod.fst)

/-- Which operation of the caller can occur when (spec/49_run_loop_host.md section 4): none while running (the spec's own
decision D20, log entry 8); otherwise each answers, and only `run` and `reset` touch anything but the two queues. -/
def Obligations.CallerOperationsByState : Prop :=
  ∀ (op : CallerOp) (s : State),
    (perform op s = none ↔ s.state = .running) ∧
    (∀ reply after, perform op s = some (reply, after) → ∃ t, after = .next t ∧ t.state ≠ .running ∧
      (op ≠ .run → (∀ image, op ≠ .reset image) →
        t.state = s.state ∧ t.ip = s.ip ∧ t.cycles = s.cycles ∧ t.stack = s.stack ∧
        (∀ r, t.getReg r = s.getReg r) ∧ ∀ a, t.memRead a = s.memRead a))

/-- Image load (spec/70_reset_and_hazards.md section 1): little-endian words from address 0 on, an odd last byte dropped,
zero fill above, and every other field as after reset. That a larger image is refused is the spec's own decision D17
(log entry 18); the canonical form of the loaded memory is the model's own (log entry 1). -/
def Obligations.ImageLoadFillsMemory : Prop :=
  ∀ (config : Config) (image : List Byte),
    (image.length / 2 ≤ 32768 → ∃ t, State.resetFrom config image = some t ∧
      (∀ k (lo hi : Byte), image[2 * k]? = some lo → image[2 * k + 1]? = some hi →
        (t.mem.read k).toNat = lo.toNat + 256 * hi.toNat) ∧
      (∀ k, image.length / 2 ≤ k → t.mem.read k = 0#16) ∧
      t.mem.wf ∧ t = { State.reset with mem := t.mem, config := config }) ∧
    (32768 < image.length / 2 → State.resetFrom config image = none)
end

