-- ==== Sys2Proof/Laws/Decode.lean ====
section
/-! SUPPORT. The laws of operand words and of the three operand formats. -/

namespace Sys2Proof

open Machine (regBase regLimit)

@[simp] theorem encodeOperand_lit (v : Word) : encodeOperand (.lit v) = v := rfl

theorem encodeOperand_reg_toNat (r : Fin 8) : (encodeOperand (.reg r)).toNat = 32768 + r.val := by
  simp only [encodeOperand, regBase, BitVec.toNat_ofNat]
  omega

/-- What classification can answer, by the range of the word. -/
theorem classify_cases (v : Word) :
    (v.toNat < 32768 ∧ classify v = some (.lit v)) ∨
    (∃ r : Fin 8, v.toNat = 32768 + r.val ∧ classify v = some (.reg r)) ∨
    (32776 ≤ v.toNat ∧ classify v = none) := by
  unfold classify
  simp only [regBase, regLimit]
  by_cases h1 : v.toNat < 32768
  · exact .inl ⟨h1, by simp [h1]⟩
  · by_cases h2 : v.toNat < 32776
    · have hlt : v.toNat - 32768 < 8 := by omega
      have hsum : v.toNat = 32768 + (v.toNat - 32768) := by omega
      refine .inr (.inl ⟨⟨v.toNat - 32768, hlt⟩, hsum, ?_⟩)
      rw [if_neg h1, if_pos h2]
      exact congrArg (fun r => some (Operand.reg r)) (Fin.ext (Nat.mod_eq_of_lt hlt))
    · exact .inr (.inr ⟨by omega, by simp [h1, h2]⟩)

theorem classify_isSome {v : Word} : (∃ op, classify v = some op) ↔ v.toNat < 32776 := by
  rcases classify_cases v with ⟨h, e⟩ | ⟨r, h, e⟩ | ⟨h, e⟩
  · simp only [e, Option.some.injEq, exists_eq', true_iff]; omega
  · simp only [e, Option.some.injEq, exists_eq', true_iff]; omega
  · simp only [e, reduceCtorEq, exists_false, false_iff]; omega

theorem classify_eq_none {v : Word} : classify v = none ↔ 32776 ≤ v.toNat := by
  rcases classify_cases v with ⟨h, e⟩ | ⟨r, h, e⟩ | ⟨h, e⟩ <;> simp only [e, reduceCtorEq, false_iff, true_iff] <;> omega

/-- A well-formed operand's word classifies to that operand. -/
theorem classify_encodeOperand {op : Operand} (h : op.wf = true) : classify (encodeOperand op) = some op := by
  cases op with
  | lit v => simp [classify, encodeOperand, of_decide_eq_true h]
  | reg r =>
    have hv := encodeOperand_reg_toNat r
    rcases classify_cases (encodeOperand (.reg r)) with ⟨hlt, _⟩ | ⟨q, hq, e⟩ | ⟨hge, _⟩
    · omega
    · rw [e, Fin.ext (show q.val = r.val by omega)]
    · omega

/-- A classified word is the word of its operand, which is well formed. -/
theorem encodeOperand_of_classify {v : Word} {op : Operand} (h : classify v = some op) :
    encodeOperand op = v ∧ op.wf = true := by
  rcases classify_cases v with ⟨hlt, e⟩ | ⟨r, hr, e⟩ | ⟨_, e⟩
  · rw [e, Option.some.injEq] at h
    subst h
    exact ⟨rfl, by simp [Operand.wf, regBase, hlt]⟩
  · rw [e, Option.some.injEq] at h
    subst h
    exact ⟨BitVec.eq_of_toNat_eq (by rw [encodeOperand_reg_toNat, hr]), rfl⟩
  · rw [e] at h
    exact absurd h (by simp)

/-- Everything one operand word can lead to. -/
theorem withOperand_cases (k : Nat) (words : List Word) (next : Operand → List Word → DecodeResult) :
    (words = [] ∧ withOperand k words next = .fail .noWord k) ∨
    (∃ v rest, words = v :: rest ∧ classify v = none ∧ withOperand k words next = .fail (.invalidOperand v) (k + 1)) ∨
    (∃ v rest op, words = v :: rest ∧ classify v = some op ∧ withOperand k words next = next op rest) := by
  cases words with
  | nil => exact .inl ⟨rfl, rfl⟩
  | cons v rest =>
    cases h : classify v with
    | none => exact .inr (.inl ⟨v, rest, rfl, h, by simp [withOperand, h]⟩)
    | some op => exact .inr (.inr ⟨v, rest, op, rfl, h, by simp [withOperand, h]⟩)

@[simp] theorem withOperand_encoded {op : Operand} (h : op.wf = true) (k : Nat) (rest : List Word)
    (next : Operand → List Word → DecodeResult) : withOperand k (encodeOperand op :: rest) next = next op rest := by
  simp [withOperand, classify_encodeOperand h]

/-- The words of a well-formed F1 instruction's operand are read back. -/
theorem decode1_encoded {a : Operand} (ha : a.wf = true) (mk : Operand → Instr) (rest : List Word) :
    decode1 mk (encodeOperand a :: rest) = .instr (mk a) 2 := by
  simp [decode1, ha]

theorem decode2_encoded {a b : Operand} (ha : a.wf = true) (hb : b.wf = true) (mk : Operand → Operand → Instr)
    (rest : List Word) : decode2 mk (encodeOperand a :: encodeOperand b :: rest) = .instr (mk a b) 3 := by
  simp [decode2, ha, hb]

theorem decode3_encoded {a b c : Operand} (ha : a.wf = true) (hb : b.wf = true) (hc : c.wf = true)
    (mk : Operand → Operand → Operand → Instr) (rest : List Word) :
    decode3 mk (encodeOperand a :: encodeOperand b :: encodeOperand c :: rest) = .instr (mk a b c) 4 := by
  simp [decode3, ha, hb, hc]

/-- What the words of a decoded F1 instruction are. -/
theorem decode1_eq_instr {mk : Operand → Instr} {words : List Word} {i : Instr} {n : Nat}
    (h : decode1 mk words = .instr i n) :
    ∃ a rest, words = encodeOperand a :: rest ∧ a.wf = true ∧ i = mk a ∧ n = 2 := by
  unfold decode1 at h
  rcases withOperand_cases 1 words fun a _ => .instr (mk a) 2 with ⟨_, e⟩ | ⟨v, rest, _, _, e⟩ | ⟨v, rest, a, hw, hc, e⟩
  · rw [e] at h; simp at h
  · rw [e] at h; simp at h
  · rw [e, DecodeResult.instr.injEq] at h
    obtain ⟨hv, hwf⟩ := encodeOperand_of_classify hc
    exact ⟨a, rest, by rw [hv, hw], hwf, h.1.symm, h.2.symm⟩

theorem decode2_eq_instr {mk : Operand → Operand → Instr} {words : List Word} {i : Instr} {n : Nat}
    (h : decode2 mk words = .instr i n) :
    ∃ a b rest, words = encodeOperand a :: encodeOperand b :: rest ∧ a.wf = true ∧ b.wf = true ∧ i = mk a b ∧ n = 3 := by
  unfold decode2 at h
  rcases withOperand_cases 1 words fun a ws => withOperand 2 ws fun b _ => .instr (mk a b) 3 with
    ⟨_, e⟩ | ⟨v, rest, _, _, e⟩ | ⟨v, rest, a, hw, hc, e⟩
  · rw [e] at h; simp at h
  · rw [e] at h; simp at h
  · rw [e] at h
    obtain ⟨hv, hwf⟩ := encodeOperand_of_classify hc
    rcases withOperand_cases 2 rest fun b _ => .instr (mk a b) 3 with
      ⟨_, e2⟩ | ⟨u, more, _, _, e2⟩ | ⟨u, more, b, hw2, hc2, e2⟩
    · rw [e2] at h; simp at h
    · rw [e2] at h; simp at h
    · rw [e2, DecodeResult.instr.injEq] at h
      obtain ⟨hu, hwf2⟩ := encodeOperand_of_classify hc2
      exact ⟨a, b, more, by rw [hv, hu, hw, hw2], hwf, hwf2, h.1.symm, h.2.symm⟩

theorem decode3_eq_instr {mk : Operand → Operand → Operand → Instr} {words : List Word} {i : Instr} {n : Nat}
    (h : decode3 mk words = .instr i n) :
    ∃ a b c rest, words = encodeOperand a :: encodeOperand b :: encodeOperand c :: rest ∧ a.wf = true ∧ b.wf = true ∧
      c.wf = true ∧ i = mk a b c ∧ n = 4 := by
  unfold decode3 at h
  rcases withOperand_cases 1 words fun a ws => withOperand 2 ws fun b ws => withOperand 3 ws fun c _ =>
      .instr (mk a b c) 4 with ⟨_, e⟩ | ⟨v, rest, _, _, e⟩ | ⟨v, rest, a, hw, hc, e⟩
  · rw [e] at h; simp at h
  · rw [e] at h; simp at h
  · rw [e] at h
    obtain ⟨hv, hwf⟩ := encodeOperand_of_classify hc
    rcases withOperand_cases 2 rest fun b ws => withOperand 3 ws fun c _ => .instr (mk a b c) 4 with
      ⟨_, e2⟩ | ⟨u, more, _, _, e2⟩ | ⟨u, more, b, hw2, hc2, e2⟩
    · rw [e2] at h; simp at h
    · rw [e2] at h; simp at h
    · rw [e2] at h
      obtain ⟨hu, hwf2⟩ := encodeOperand_of_classify hc2
      rcases withOperand_cases 3 more fun c _ => .instr (mk a b c) 4 with
        ⟨_, e3⟩ | ⟨y, last, _, _, e3⟩ | ⟨y, last, c, hw3, hc3, e3⟩
      · rw [e3] at h; simp at h
      · rw [e3] at h; simp at h
      · rw [e3, DecodeResult.instr.injEq] at h
        obtain ⟨hy, hwf3⟩ := encodeOperand_of_classify hc3
        exact ⟨a, b, c, last, by rw [hv, hu, hy, hw, hw2, hw3], hwf, hwf2, hwf3, h.1.symm, h.2.symm⟩

/-- The encoding of an instruction is its opcode word and one word for each operand. -/
@[simp] theorem encode_length (i : Instr) : (encode i).length = i.operands.length + 1 := by
  simp [encode]

/-- The opcode word of an instruction is one of the 22 (R50). -/
theorem opcode_le (i : Instr) : i.opcode.toNat ≤ 21 := by
  cases i <;> simp [Instr.opcode]

end Sys2Proof
end

