-- ==== Sys2Proof/Laws/State.lean ====
section
/-! SUPPORT. One lemma per field per update of the state record, true by `rfl`, so that no later proof unfolds an update;
and what the accessors read after an update. -/

namespace Sys2Proof.Machine

section Fields

variable (s : State)

@[simp] theorem State.setMem_mem (m : Memory) : (s.setMem m).mem = m := rfl
@[simp] theorem State.setMem_x (m : Memory) : (s.setMem m).x = s.x := rfl
@[simp] theorem State.setMem_stack (m : Memory) : (s.setMem m).stack = s.stack := rfl
@[simp] theorem State.setMem_ip (m : Memory) : (s.setMem m).ip = s.ip := rfl
@[simp] theorem State.setMem_state (m : Memory) : (s.setMem m).state = s.state := rfl
@[simp] theorem State.setMem_cycles (m : Memory) : (s.setMem m).cycles = s.cycles := rfl
@[simp] theorem State.setMem_inq (m : Memory) : (s.setMem m).inq = s.inq := rfl
@[simp] theorem State.setMem_outbuf (m : Memory) : (s.setMem m).outbuf = s.outbuf := rfl
@[simp] theorem State.setMem_config (m : Memory) : (s.setMem m).config = s.config := rfl

@[simp] theorem State.setStack_mem (l : List Word) : (s.setStack l).mem = s.mem := rfl
@[simp] theorem State.setStack_x (l : List Word) : (s.setStack l).x = s.x := rfl
@[simp] theorem State.setStack_stack (l : List Word) : (s.setStack l).stack = l := rfl
@[simp] theorem State.setStack_ip (l : List Word) : (s.setStack l).ip = s.ip := rfl
@[simp] theorem State.setStack_state (l : List Word) : (s.setStack l).state = s.state := rfl
@[simp] theorem State.setStack_cycles (l : List Word) : (s.setStack l).cycles = s.cycles := rfl
@[simp] theorem State.setStack_inq (l : List Word) : (s.setStack l).inq = s.inq := rfl
@[simp] theorem State.setStack_outbuf (l : List Word) : (s.setStack l).outbuf = s.outbuf := rfl
@[simp] theorem State.setStack_config (l : List Word) : (s.setStack l).config = s.config := rfl

@[simp] theorem State.setInq_mem (l : List Word) : (s.setInq l).mem = s.mem := rfl
@[simp] theorem State.setInq_x (l : List Word) : (s.setInq l).x = s.x := rfl
@[simp] theorem State.setInq_stack (l : List Word) : (s.setInq l).stack = s.stack := rfl
@[simp] theorem State.setInq_ip (l : List Word) : (s.setInq l).ip = s.ip := rfl
@[simp] theorem State.setInq_state (l : List Word) : (s.setInq l).state = s.state := rfl
@[simp] theorem State.setInq_cycles (l : List Word) : (s.setInq l).cycles = s.cycles := rfl
@[simp] theorem State.setInq_inq (l : List Word) : (s.setInq l).inq = l := rfl
@[simp] theorem State.setInq_outbuf (l : List Word) : (s.setInq l).outbuf = s.outbuf := rfl
@[simp] theorem State.setInq_config (l : List Word) : (s.setInq l).config = s.config := rfl

@[simp] theorem State.setReg_mem (i : Fin 8) (v : Word) : (s.setReg i v).mem = s.mem := rfl
@[simp] theorem State.setReg_x (i : Fin 8) (v : Word) : (s.setReg i v).x = s.x.set i v := rfl
@[simp] theorem State.setReg_stack (i : Fin 8) (v : Word) : (s.setReg i v).stack = s.stack := rfl
@[simp] theorem State.setReg_ip (i : Fin 8) (v : Word) : (s.setReg i v).ip = s.ip := rfl
@[simp] theorem State.setReg_state (i : Fin 8) (v : Word) : (s.setReg i v).state = s.state := rfl
@[simp] theorem State.setReg_cycles (i : Fin 8) (v : Word) : (s.setReg i v).cycles = s.cycles := rfl
@[simp] theorem State.setReg_inq (i : Fin 8) (v : Word) : (s.setReg i v).inq = s.inq := rfl
@[simp] theorem State.setReg_outbuf (i : Fin 8) (v : Word) : (s.setReg i v).outbuf = s.outbuf := rfl
@[simp] theorem State.setReg_config (i : Fin 8) (v : Word) : (s.setReg i v).config = s.config := rfl

@[simp] theorem State.push_mem (v : Word) : (s.push v).mem = s.mem := rfl
@[simp] theorem State.push_x (v : Word) : (s.push v).x = s.x := rfl
@[simp] theorem State.push_stack (v : Word) : (s.push v).stack = v :: s.stack := rfl
@[simp] theorem State.push_ip (v : Word) : (s.push v).ip = s.ip := rfl
@[simp] theorem State.push_state (v : Word) : (s.push v).state = s.state := rfl
@[simp] theorem State.push_cycles (v : Word) : (s.push v).cycles = s.cycles := rfl
@[simp] theorem State.push_inq (v : Word) : (s.push v).inq = s.inq := rfl
@[simp] theorem State.push_outbuf (v : Word) : (s.push v).outbuf = s.outbuf := rfl
@[simp] theorem State.push_config (v : Word) : (s.push v).config = s.config := rfl

@[simp] theorem State.inqAppend_mem (w : Word) : (s.inqAppend w).mem = s.mem := rfl
@[simp] theorem State.inqAppend_x (w : Word) : (s.inqAppend w).x = s.x := rfl
@[simp] theorem State.inqAppend_stack (w : Word) : (s.inqAppend w).stack = s.stack := rfl
@[simp] theorem State.inqAppend_ip (w : Word) : (s.inqAppend w).ip = s.ip := rfl
@[simp] theorem State.inqAppend_state (w : Word) : (s.inqAppend w).state = s.state := rfl
@[simp] theorem State.inqAppend_cycles (w : Word) : (s.inqAppend w).cycles = s.cycles := rfl
@[simp] theorem State.inqAppend_inq (w : Word) : (s.inqAppend w).inq = s.inq ++ [w] := rfl
@[simp] theorem State.inqAppend_outbuf (w : Word) : (s.inqAppend w).outbuf = s.outbuf := rfl
@[simp] theorem State.inqAppend_config (w : Word) : (s.inqAppend w).config = s.config := rfl

@[simp] theorem State.outAppend_mem (c : Byte) : (s.outAppend c).mem = s.mem := rfl
@[simp] theorem State.outAppend_x (c : Byte) : (s.outAppend c).x = s.x := rfl
@[simp] theorem State.outAppend_stack (c : Byte) : (s.outAppend c).stack = s.stack := rfl
@[simp] theorem State.outAppend_ip (c : Byte) : (s.outAppend c).ip = s.ip := rfl
@[simp] theorem State.outAppend_state (c : Byte) : (s.outAppend c).state = s.state := rfl
@[simp] theorem State.outAppend_cycles (c : Byte) : (s.outAppend c).cycles = s.cycles := rfl
@[simp] theorem State.outAppend_inq (c : Byte) : (s.outAppend c).inq = s.inq := rfl
@[simp] theorem State.outAppend_outbuf (c : Byte) : (s.outAppend c).outbuf = s.outbuf ++ [c] := rfl
@[simp] theorem State.outAppend_config (c : Byte) : (s.outAppend c).config = s.config := rfl

@[simp] theorem State.setIp_mem (t : Word) : (s.setIp t).mem = s.mem := rfl
@[simp] theorem State.setIp_x (t : Word) : (s.setIp t).x = s.x := rfl
@[simp] theorem State.setIp_stack (t : Word) : (s.setIp t).stack = s.stack := rfl
@[simp] theorem State.setIp_ip (t : Word) : (s.setIp t).ip = t := rfl
@[simp] theorem State.setIp_state (t : Word) : (s.setIp t).state = s.state := rfl
@[simp] theorem State.setIp_cycles (t : Word) : (s.setIp t).cycles = s.cycles := rfl
@[simp] theorem State.setIp_inq (t : Word) : (s.setIp t).inq = s.inq := rfl
@[simp] theorem State.setIp_outbuf (t : Word) : (s.setIp t).outbuf = s.outbuf := rfl
@[simp] theorem State.setIp_config (t : Word) : (s.setIp t).config = s.config := rfl

@[simp] theorem State.setState_mem (e : ExecState) : (s.setState e).mem = s.mem := rfl
@[simp] theorem State.setState_x (e : ExecState) : (s.setState e).x = s.x := rfl
@[simp] theorem State.setState_stack (e : ExecState) : (s.setState e).stack = s.stack := rfl
@[simp] theorem State.setState_ip (e : ExecState) : (s.setState e).ip = s.ip := rfl
@[simp] theorem State.setState_state (e : ExecState) : (s.setState e).state = e := rfl
@[simp] theorem State.setState_cycles (e : ExecState) : (s.setState e).cycles = s.cycles := rfl
@[simp] theorem State.setState_inq (e : ExecState) : (s.setState e).inq = s.inq := rfl
@[simp] theorem State.setState_outbuf (e : ExecState) : (s.setState e).outbuf = s.outbuf := rfl
@[simp] theorem State.setState_config (e : ExecState) : (s.setState e).config = s.config := rfl

@[simp] theorem State.advance_mem (n : Nat) : (s.advance n).mem = s.mem := rfl
@[simp] theorem State.advance_x (n : Nat) : (s.advance n).x = s.x := rfl
@[simp] theorem State.advance_stack (n : Nat) : (s.advance n).stack = s.stack := rfl
@[simp] theorem State.advance_ip (n : Nat) : (s.advance n).ip = s.ip + BitVec.ofNat 16 n := rfl
@[simp] theorem State.advance_state (n : Nat) : (s.advance n).state = s.state := rfl
@[simp] theorem State.advance_cycles (n : Nat) : (s.advance n).cycles = s.cycles := rfl
@[simp] theorem State.advance_inq (n : Nat) : (s.advance n).inq = s.inq := rfl
@[simp] theorem State.advance_outbuf (n : Nat) : (s.advance n).outbuf = s.outbuf := rfl
@[simp] theorem State.advance_config (n : Nat) : (s.advance n).config = s.config := rfl

@[simp] theorem State.rewind_mem : (s.rewind).mem = s.mem := rfl
@[simp] theorem State.rewind_x : (s.rewind).x = s.x := rfl
@[simp] theorem State.rewind_stack : (s.rewind).stack = s.stack := rfl
@[simp] theorem State.rewind_ip : (s.rewind).ip = s.ip - 2#16 := rfl
@[simp] theorem State.rewind_state : (s.rewind).state = s.state := rfl
@[simp] theorem State.rewind_cycles : (s.rewind).cycles = s.cycles := rfl
@[simp] theorem State.rewind_inq : (s.rewind).inq = s.inq := rfl
@[simp] theorem State.rewind_outbuf : (s.rewind).outbuf = s.outbuf := rfl
@[simp] theorem State.rewind_config : (s.rewind).config = s.config := rfl

@[simp] theorem State.raise_mem (c : Cause) : (s.raise c).mem = s.mem := rfl
@[simp] theorem State.raise_x (c : Cause) : (s.raise c).x = s.x := rfl
@[simp] theorem State.raise_stack (c : Cause) : (s.raise c).stack = s.stack := rfl
@[simp] theorem State.raise_ip (c : Cause) : (s.raise c).ip = s.ip := rfl
@[simp] theorem State.raise_state (c : Cause) : (s.raise c).state = .errored c := rfl
@[simp] theorem State.raise_cycles (c : Cause) : (s.raise c).cycles = s.cycles := rfl
@[simp] theorem State.raise_inq (c : Cause) : (s.raise c).inq = s.inq := rfl
@[simp] theorem State.raise_outbuf (c : Cause) : (s.raise c).outbuf = s.outbuf := rfl
@[simp] theorem State.raise_config (c : Cause) : (s.raise c).config = s.config := rfl

@[simp] theorem State.halt_mem : (s.halt).mem = s.mem := rfl
@[simp] theorem State.halt_x : (s.halt).x = s.x := rfl
@[simp] theorem State.halt_stack : (s.halt).stack = s.stack := rfl
@[simp] theorem State.halt_ip : (s.halt).ip = s.ip := rfl
@[simp] theorem State.halt_state : (s.halt).state = .halted := rfl
@[simp] theorem State.halt_cycles : (s.halt).cycles = s.cycles := rfl
@[simp] theorem State.halt_inq : (s.halt).inq = s.inq := rfl
@[simp] theorem State.halt_outbuf : (s.halt).outbuf = s.outbuf := rfl
@[simp] theorem State.halt_config : (s.halt).config = s.config := rfl

@[simp] theorem State.block_mem : (s.block).mem = s.mem := rfl
@[simp] theorem State.block_x : (s.block).x = s.x := rfl
@[simp] theorem State.block_stack : (s.block).stack = s.stack := rfl
@[simp] theorem State.block_ip : (s.block).ip = s.ip - 2#16 := rfl
@[simp] theorem State.block_state : (s.block).state = .waitingForInput := rfl
@[simp] theorem State.block_cycles : (s.block).cycles = s.cycles := rfl
@[simp] theorem State.block_inq : (s.block).inq = s.inq := rfl
@[simp] theorem State.block_outbuf : (s.block).outbuf = s.outbuf := rfl
@[simp] theorem State.block_config : (s.block).config = s.config := rfl

@[simp] theorem State.count_mem : (s.count).mem = s.mem := rfl
@[simp] theorem State.count_x : (s.count).x = s.x := rfl
@[simp] theorem State.count_stack : (s.count).stack = s.stack := rfl
@[simp] theorem State.count_ip : (s.count).ip = s.ip := rfl
@[simp] theorem State.count_state : (s.count).state = s.state := rfl
@[simp] theorem State.count_cycles : (s.count).cycles = s.cycles + 1 := rfl
@[simp] theorem State.count_inq : (s.count).inq = s.inq := rfl
@[simp] theorem State.count_outbuf : (s.count).outbuf = s.outbuf := rfl
@[simp] theorem State.count_config : (s.count).config = s.config := rfl

@[simp] theorem State.prepared_mem (n : Nat) : (s.prepared n).mem = s.mem := rfl
@[simp] theorem State.prepared_x (n : Nat) : (s.prepared n).x = s.x := rfl
@[simp] theorem State.prepared_stack (n : Nat) : (s.prepared n).stack = s.stack := rfl
@[simp] theorem State.prepared_ip (n : Nat) : (s.prepared n).ip = s.ip + BitVec.ofNat 16 n := rfl
@[simp] theorem State.prepared_state (n : Nat) : (s.prepared n).state = s.state := rfl
@[simp] theorem State.prepared_cycles (n : Nat) : (s.prepared n).cycles = s.cycles + 1 := rfl
@[simp] theorem State.prepared_inq (n : Nat) : (s.prepared n).inq = s.inq := rfl
@[simp] theorem State.prepared_outbuf (n : Nat) : (s.prepared n).outbuf = s.outbuf := rfl
@[simp] theorem State.prepared_config (n : Nat) : (s.prepared n).config = s.config := rfl

@[simp] theorem State.decodeFailure_mem (e : DecodeError) (n : Nat) : (s.decodeFailure e n).mem = s.mem := rfl
@[simp] theorem State.decodeFailure_x (e : DecodeError) (n : Nat) : (s.decodeFailure e n).x = s.x := rfl
@[simp] theorem State.decodeFailure_stack (e : DecodeError) (n : Nat) : (s.decodeFailure e n).stack = s.stack := rfl
@[simp] theorem State.decodeFailure_ip (e : DecodeError) (n : Nat) : (s.decodeFailure e n).ip = s.ip + BitVec.ofNat 16 n := rfl
@[simp] theorem State.decodeFailure_state (e : DecodeError) (n : Nat) : (s.decodeFailure e n).state = .errored (causeOf (s.ip + BitVec.ofNat 16 n) e) := rfl
@[simp] theorem State.decodeFailure_cycles (e : DecodeError) (n : Nat) : (s.decodeFailure e n).cycles = s.cycles := rfl
@[simp] theorem State.decodeFailure_inq (e : DecodeError) (n : Nat) : (s.decodeFailure e n).inq = s.inq := rfl
@[simp] theorem State.decodeFailure_outbuf (e : DecodeError) (n : Nat) : (s.decodeFailure e n).outbuf = s.outbuf := rfl
@[simp] theorem State.decodeFailure_config (e : DecodeError) (n : Nat) : (s.decodeFailure e n).config = s.config := rfl

end Fields

/-! ### Accessors after an update -/

section Accessors

variable (s : State)

@[simp] theorem State.getReg_setReg_same (i : Fin 8) (v : Word) : (s.setReg i v).getReg i = v := by
  simp [State.getReg]

theorem State.getReg_setReg_other (i j : Fin 8) (v : Word) (h : j ≠ i) : (s.setReg i v).getReg j = s.getReg j := by
  have hne : i.val ≠ j.val := fun e => h (Fin.ext e.symm)
  simp [State.getReg, hne]

/-- A register reads the same in two states with the same register file. -/
theorem State.getReg_congr {s t : State} (h : t.x = s.x) (i : Fin 8) : t.getReg i = s.getReg i := by
  simp [State.getReg, h]

/-- A memory word reads the same in two states with the same memory. -/
theorem State.memRead_congr {s t : State} (h : t.mem = s.mem) (a : Word) : t.memRead a = s.memRead a := by
  simp [State.memRead, h]

@[simp] theorem State.memRead_setReg (i : Fin 8) (v : Word) (a : Word) : (s.setReg i v).memRead a = s.memRead a := rfl
@[simp] theorem State.getReg_push (v : Word) (j : Fin 8) : (s.push v).getReg j = s.getReg j := rfl
@[simp] theorem State.memRead_push (v : Word) (a : Word) : (s.push v).memRead a = s.memRead a := rfl
@[simp] theorem State.getReg_inqAppend (w : Word) (j : Fin 8) : (s.inqAppend w).getReg j = s.getReg j := rfl
@[simp] theorem State.memRead_inqAppend (w : Word) (a : Word) : (s.inqAppend w).memRead a = s.memRead a := rfl
@[simp] theorem State.getReg_outAppend (c : Byte) (j : Fin 8) : (s.outAppend c).getReg j = s.getReg j := rfl
@[simp] theorem State.memRead_outAppend (c : Byte) (a : Word) : (s.outAppend c).memRead a = s.memRead a := rfl
@[simp] theorem State.getReg_setIp (t : Word) (j : Fin 8) : (s.setIp t).getReg j = s.getReg j := rfl
@[simp] theorem State.memRead_setIp (t : Word) (a : Word) : (s.setIp t).memRead a = s.memRead a := rfl
@[simp] theorem State.getReg_setState (e : ExecState) (j : Fin 8) : (s.setState e).getReg j = s.getReg j := rfl
@[simp] theorem State.memRead_setState (e : ExecState) (a : Word) : (s.setState e).memRead a = s.memRead a := rfl
@[simp] theorem State.getReg_advance (n : Nat) (j : Fin 8) : (s.advance n).getReg j = s.getReg j := rfl
@[simp] theorem State.memRead_advance (n : Nat) (a : Word) : (s.advance n).memRead a = s.memRead a := rfl
@[simp] theorem State.getReg_rewind (j : Fin 8) : (s.rewind).getReg j = s.getReg j := rfl
@[simp] theorem State.memRead_rewind (a : Word) : (s.rewind).memRead a = s.memRead a := rfl
@[simp] theorem State.getReg_raise (c : Cause) (j : Fin 8) : (s.raise c).getReg j = s.getReg j := rfl
@[simp] theorem State.memRead_raise (c : Cause) (a : Word) : (s.raise c).memRead a = s.memRead a := rfl
@[simp] theorem State.getReg_halt (j : Fin 8) : (s.halt).getReg j = s.getReg j := rfl
@[simp] theorem State.memRead_halt (a : Word) : (s.halt).memRead a = s.memRead a := rfl
@[simp] theorem State.getReg_block (j : Fin 8) : (s.block).getReg j = s.getReg j := rfl
@[simp] theorem State.memRead_block (a : Word) : (s.block).memRead a = s.memRead a := rfl
@[simp] theorem State.getReg_count (j : Fin 8) : (s.count).getReg j = s.getReg j := rfl
@[simp] theorem State.memRead_count (a : Word) : (s.count).memRead a = s.memRead a := rfl
@[simp] theorem State.getReg_prepared (n : Nat) (j : Fin 8) : (s.prepared n).getReg j = s.getReg j := rfl
@[simp] theorem State.memRead_prepared (n : Nat) (a : Word) : (s.prepared n).memRead a = s.memRead a := rfl
@[simp] theorem State.getReg_decodeFailure (e : DecodeError) (n : Nat) (j : Fin 8) : (s.decodeFailure e n).getReg j = s.getReg j := rfl
@[simp] theorem State.memRead_decodeFailure (e : DecodeError) (n : Nat) (a : Word) : (s.decodeFailure e n).memRead a = s.memRead a := rfl
@[simp] theorem State.getReg_setMem (m : Memory) (j : Fin 8) : (s.setMem m).getReg j = s.getReg j := rfl
@[simp] theorem State.getReg_setStack (l : List Word) (j : Fin 8) : (s.setStack l).getReg j = s.getReg j := rfl
@[simp] theorem State.memRead_setStack (l : List Word) (a : Word) : (s.setStack l).memRead a = s.memRead a := rfl
@[simp] theorem State.getReg_setInq (l : List Word) (j : Fin 8) : (s.setInq l).getReg j = s.getReg j := rfl
@[simp] theorem State.memRead_setInq (l : List Word) (a : Word) : (s.setInq l).memRead a = s.memRead a := rfl

end Accessors

end Sys2Proof.Machine
end

