-- ==== Sys2Proof/Laws/Memory.lean ====
section
/-! SUPPORT. The laws of memory: what a write and an image load read as, that every memory operation keeps the canonical
form, and that the form determines the list. -/

namespace Sys2Proof.Machine

@[simp] theorem Memory.read_nil (a : Nat) : Memory.read [] a = Memory.fill := rfl

theorem Memory.read_cons (k : Nat) (w : Word) (m : Memory) (a : Nat) :
    Memory.read ((k, w) :: m) a = if k = a then w else Memory.read m a := rfl

/-- An address that no entry lists reads as the fill word. -/
theorem Memory.read_of_not_listed {m : Memory} {a : Nat} (h : ∀ cell ∈ m, cell.1 ≠ a) :
    Memory.read m a = Memory.fill := by
  induction m with
  | nil => rfl
  | cons cell m ih =>
    obtain ⟨k, w⟩ := cell
    have hk : k ≠ a := h (k, w) (by simp)
    rw [Memory.read_cons, if_neg hk]
    exact ih fun c hc => h c (by simp [hc])

/-- Dropping the entries of one address changes no other. -/
theorem Memory.read_filter_other (m : Memory) {a b : Nat} (h : b ≠ a) :
    Memory.read (m.filter fun cell => cell.1 != a) b = Memory.read m b := by
  induction m with
  | nil => rfl
  | cons cell m ih =>
    obtain ⟨k, w⟩ := cell
    by_cases hk : k = a
    · subst hk
      simp [Memory.read_cons, ih, h.symm]
    · simp [hk, Memory.read_cons, ih]

theorem Memory.read_insert_other (m : Memory) {a b : Nat} (v : Word) (h : b ≠ a) :
    Memory.read (Memory.insert a v m) b = Memory.read m b := by
  induction m with
  | nil => simp [Memory.insert, Memory.read_cons, h.symm]
  | cons cell m ih =>
    obtain ⟨k, w⟩ := cell
    by_cases hk : a < k
    · simp [Memory.insert, hk, Memory.read_cons, h.symm]
    · simp [Memory.insert, hk, Memory.read_cons, ih]

theorem Memory.read_insert_same {m : Memory} {a : Nat} (v : Word) (h : ∀ cell ∈ m, cell.1 ≠ a) :
    Memory.read (Memory.insert a v m) a = v := by
  induction m with
  | nil => simp [Memory.insert, Memory.read_cons]
  | cons cell m ih =>
    obtain ⟨k, w⟩ := cell
    have hne : k ≠ a := h (k, w) (by simp)
    by_cases hk : a < k
    · simp [Memory.insert, hk, Memory.read_cons]
    · simp [Memory.insert, hk, Memory.read_cons, hne, ih fun c hc => h c (by simp [hc])]

/-- A read after a write: the word written at the same address, the old word at every other. It holds of every list. -/
theorem Memory.read_write (m : Memory) (a b : Nat) (v : Word) :
    Memory.read (m.write a v) b = if b = a then v else m.read b := by
  have hno : ∀ cell ∈ m.filter (fun cell => cell.1 != a), cell.1 ≠ a := by
    intro cell hc
    simpa using (List.mem_filter.mp hc).2
  by_cases hb : b = a
  · subst hb
    by_cases hv : v = Memory.fill
    · simp [Memory.write, hv, Memory.read_of_not_listed hno]
    · simp [Memory.write, hv, Memory.read_insert_same v hno]
  · by_cases hv : v = Memory.fill
    · simp [Memory.write, hv, Memory.read_filter_other m hb, hb]
    · simp [Memory.write, hv, Memory.read_insert_other _ v hb, Memory.read_filter_other m hb, hb]

theorem Memory.mem_insert {m : Memory} {a : Nat} {v : Word} {cell : Nat × Word} :
    cell ∈ Memory.insert a v m ↔ cell = (a, v) ∨ cell ∈ m := by
  induction m with
  | nil => simp [Memory.insert]
  | cons head m ih =>
    obtain ⟨k, w⟩ := head
    by_cases hk : a < k
    · simp [Memory.insert, hk]
    · simp only [Memory.insert, hk, if_false, List.mem_cons, ih]
      tauto

theorem Memory.insert_pairwise {m : Memory} {a : Nat} {v : Word} (hm : m.Pairwise (fun p q => p.1 < q.1))
    (hno : ∀ cell ∈ m, cell.1 ≠ a) : (Memory.insert a v m).Pairwise (fun p q => p.1 < q.1) := by
  induction m with
  | nil => simp [Memory.insert]
  | cons head m ih =>
    obtain ⟨k, w⟩ := head
    have hne : k ≠ a := hno (k, w) (by simp)
    obtain ⟨hhead, htail⟩ := List.pairwise_cons.mp hm
    by_cases hk : a < k
    · simp only [Memory.insert, hk, if_true, List.pairwise_cons]
      refine ⟨fun cell hc => ?_, hhead, htail⟩
      rcases List.mem_cons.mp hc with rfl | hc
      · exact hk
      · exact Nat.lt_trans hk (hhead cell hc)
    · simp only [Memory.insert, hk, if_false, List.pairwise_cons]
      refine ⟨fun cell hc => ?_, ih htail fun c hc => hno c (by simp [hc])⟩
      rcases Memory.mem_insert.mp hc with rfl | hc
      · exact Nat.lt_of_le_of_ne (Nat.le_of_not_lt hk) hne
      · exact hhead cell hc

/-- A write to a memory address keeps the canonical form. -/
theorem Memory.write_wf {m : Memory} (hm : m.wf) {a : Nat} (ha : a < memWords) (v : Word) : (m.write a v).wf := by
  obtain ⟨hsorted, hcells⟩ := hm
  have hkept : (m.filter fun cell => cell.1 != a).Pairwise (fun p q => p.1 < q.1) := hsorted.filter _
  have hno : ∀ cell ∈ m.filter (fun cell => cell.1 != a), cell.1 ≠ a := by
    intro cell hc
    simpa using (List.mem_filter.mp hc).2
  have hold : ∀ cell ∈ m.filter (fun cell => cell.1 != a), cell.1 < memWords ∧ cell.2 ≠ Memory.fill :=
    fun cell hc => hcells cell (List.mem_filter.mp hc).1
  by_cases hv : v = Memory.fill
  · simp only [Memory.write, hv, if_true]
    exact ⟨hkept, hold⟩
  · simp only [Memory.write, hv, if_false]
    refine ⟨Memory.insert_pairwise hkept hno, fun cell hc => ?_⟩
    rcases Memory.mem_insert.mp hc with rfl | hc
    · exact ⟨ha, hv⟩
    · exact hold cell hc

/-! ### Image load -/

theorem Memory.mem_ofWords {ws : List Word} {k : Nat} {cell : Nat × Word} (h : cell ∈ Memory.ofWords k ws) :
    k ≤ cell.1 ∧ cell.1 < k + ws.length ∧ cell.2 ≠ Memory.fill := by
  induction ws generalizing k with
  | nil => simp [Memory.ofWords] at h
  | cons w ws ih =>
    by_cases hw : w = Memory.fill
    · simp only [Memory.ofWords, hw, if_true] at h
      obtain ⟨hlow, hhigh, hne⟩ := ih h
      exact ⟨by omega, by rw [List.length_cons]; omega, hne⟩
    · simp only [Memory.ofWords, hw, if_false, List.mem_cons] at h
      rcases h with rfl | h
      · simp [hw]
      · obtain ⟨hlow, hhigh, hne⟩ := ih h
        exact ⟨by omega, by rw [List.length_cons]; omega, hne⟩

theorem Memory.ofWords_pairwise (k : Nat) (ws : List Word) :
    (Memory.ofWords k ws).Pairwise (fun p q => p.1 < q.1) := by
  induction ws generalizing k with
  | nil => simp [Memory.ofWords]
  | cons w ws ih =>
    by_cases hw : w = Memory.fill
    · simpa [Memory.ofWords, hw] using ih (k + 1)
    · simp only [Memory.ofWords, hw, if_false, List.pairwise_cons]
      exact ⟨fun cell hc => (Memory.mem_ofWords hc).1, ih (k + 1)⟩

/-- A loaded image is in the canonical form, if it fits. -/
theorem Memory.ofWords_wf {ws : List Word} (h : ws.length ≤ memWords) : (Memory.ofWords 0 ws).wf :=
  ⟨Memory.ofWords_pairwise 0 ws, fun _ hc => ⟨by have := Memory.mem_ofWords hc; omega, (Memory.mem_ofWords hc).2.2⟩⟩

/-- A loaded image reads as its words, and as the fill word elsewhere. -/
theorem Memory.read_ofWords (ws : List Word) (k a : Nat) :
    Memory.read (Memory.ofWords k ws) a = if k ≤ a then ws.getD (a - k) Memory.fill else Memory.fill := by
  induction ws generalizing k with
  | nil => simp [Memory.ofWords]
  | cons w ws ih =>
    by_cases hw : w = Memory.fill
    · simp only [Memory.ofWords, hw, if_true, ih]
      rcases Nat.lt_trichotomy a k with h | h | h
      · simp [show ¬ k ≤ a by omega, show ¬ k + 1 ≤ a by omega]
      · subst h
        simp
      · obtain ⟨d, rfl⟩ : ∃ d, a = k + 1 + d := ⟨a - (k + 1), by omega⟩
        simp [show k + 1 + d - k = d + 1 by omega, show k ≤ k + 1 + d by omega]
    · simp only [Memory.ofWords, hw, if_false, Memory.read_cons, ih]
      rcases Nat.lt_trichotomy a k with h | h | h
      · simp [show ¬ k ≤ a by omega, show ¬ k + 1 ≤ a by omega, show k ≠ a by omega]
      · subst h
        simp
      · obtain ⟨d, rfl⟩ : ∃ d, a = k + 1 + d := ⟨a - (k + 1), by omega⟩
        simp [show k + 1 + d - k = d + 1 by omega, show k ≤ k + 1 + d by omega, show k ≠ k + 1 + d by omega]

/-! ### The primitives on states -/

/-- What `MemWrite` can do: it answers a state exactly for a memory address, and then only `mem` differs. -/
theorem State.memWrite_eq_some {s t : State} {a v : Word} :
    s.memWrite a v = some t ↔ a.toNat < memWords ∧ t = s.setMem (s.mem.write a.toNat v) := by
  unfold State.memWrite
  split
  · simp_all [eq_comm]
  · simp_all

theorem State.memWrite_eq_none {s : State} {a v : Word} : s.memWrite a v = none ↔ memWords ≤ a.toNat := by
  unfold State.memWrite
  split <;> simp_all

theorem State.memRead_eq_none {s : State} {a : Word} : s.memRead a = none ↔ memWords ≤ a.toNat := by
  unfold State.memRead
  split <;> simp_all

theorem State.memRead_eq_some {s : State} {a w : Word} :
    s.memRead a = some w ↔ a.toNat < memWords ∧ s.mem.read a.toNat = w := by
  unfold State.memRead
  split <;> simp_all

/-- A memory word after a store into memory. -/
theorem State.memRead_of_write {s t : State} {a v : Word} (h : s.memWrite a v = some t) (b : Word) :
    t.memRead b = if b = a then some v else s.memRead b := by
  obtain ⟨ha, rfl⟩ := State.memWrite_eq_some.mp h
  by_cases hb : b = a
  · subst hb
    simp [State.memRead, ha, Memory.read_write]
  · have hne : b.toNat ≠ a.toNat := fun e => hb (BitVec.eq_of_toNat_eq e)
    simp [State.memRead, Memory.read_write, hb, hne]

end Sys2Proof.Machine
end

