-- ==== Sys2Proof/Laws/Exec.lean ====
section
/-! SUPPORT. What the shared operations and the instructions can do, said once: `exec` always answers a next state, and
`Effect` lists which. Later proofs take an instruction apart with `exec_eq_next` instead of unfolding the meanings. -/

namespace Sys2Proof.Machine

@[simp] theorem State.val_lit (s : State) (v : Word) : s.val (.lit v) = v := rfl

@[simp] theorem State.val_reg (s : State) (r : Fin 8) : s.val (.reg r) = s.getReg r := rfl

/-- An operand resolves the same in two states with the same register file. -/
theorem State.val_congr {s t : State} (h : t.x = s.x) (op : Operand) : t.val op = s.val op := by
  cases op with
  | lit v => rfl
  | reg r => exact State.getReg_congr h r

/-- Everything an instruction's last two phases can do. -/
theorem withDestination_cases (dst : Operand) (s : State) (commit : Fin 8 → State) :
    (∃ l, dst = .lit l ∧ withDestination dst s commit = .next (s.raise (.writeToImmediate l))) ∨
    (∃ r, dst = .reg r ∧ withDestination dst s commit = .next (commit r)) := by
  cases dst with
  | lit l => exact .inl ⟨l, rfl, rfl⟩
  | reg r => exact .inr ⟨r, rfl, rfl⟩

theorem State.pop_cases (s : State) :
    (s.stack = [] ∧ s.pop = none) ∨ ∃ v rest, s.stack = v :: rest ∧ s.pop = some (v, s.setStack rest) := by
  unfold State.pop
  cases s.stack with
  | nil => exact .inl ⟨rfl, rfl⟩
  | cons v rest => exact .inr ⟨v, rest, rfl, rfl⟩

theorem State.inqTake_cases (s : State) :
    (s.inq = [] ∧ s.inqTake = none) ∨ ∃ w rest, s.inq = w :: rest ∧ s.inqTake = some (w, s.setInq rest) := by
  unfold State.inqTake
  cases s.inq with
  | nil => exact .inl ⟨rfl, rfl⟩
  | cons w rest => exact .inr ⟨w, rest, rfl, rfl⟩

theorem State.stackFull_iff (s : State) :
    s.stackFull = true ↔ ∃ n, s.config.stackCapacity = some n ∧ n ≤ s.stack.length := by
  unfold State.stackFull
  cases s.config.stackCapacity <;> simp

@[simp] theorem isTrueWord_iff (c : Word) : isTrueWord c = true ↔ c ≠ 0#16 := by
  simp [isTrueWord]

/-- The word that an instruction whose one write is its destination register writes there; `none` where it raises before
its destination is looked at, and for the other instructions. -/
def resultOf (s : State) : Instr → Option Word
  | .set _ src => some (s.val src)
  | .eq _ a b => some (equalWord (s.val a) (s.val b))
  | .gt _ a b => some (greaterWord (s.val a) (s.val b))
  | .add _ a b => some (aluAdd (s.val a) (s.val b))
  | .multiply _ a b => some (aluMultiply (s.val a) (s.val b))
  | .modulo _ a b => if s.val b = 0#16 then none else some (aluModulo (s.val a) (s.val b))
  | .and _ a b => some (aluAnd (s.val a) (s.val b))
  | .or _ a b => some (aluOr (s.val a) (s.val b))
  | .not _ a => some (aluNot (s.val a))
  | .readMemory _ addr => s.memRead (s.val addr)
  | .halt | .push _ | .pop _ | .jmp _ | .jumpIfTrue _ _ | .jumpIfFalse _ _ | .writeMemory _ _ | .call _ | .ret
  | .output _ | .input _ | .noop => none

/-- Which execute-time causes an instruction can raise in a state. -/
inductive Raises : Instr → State → Cause → Prop where
  | literal {i s l} (h : i.destination = some (.lit l)) : Raises i s (.writeToImmediate l)
  | underflow {s dst} (h : s.stack = []) : Raises (.pop dst) s .stackUnderflow
  | zeroDivisor {s dst a b} (h : s.val b = 0#16) : Raises (.modulo dst a b) s .moduloByZero
  | pushFull {s src} (h : s.stackFull = true) : Raises (.push src) s .stackOverflow
  | callFull {s target} (h : s.stackFull = true) : Raises (.call target) s .stackOverflow
  | readRange {s dst addr} (h : memWords ≤ (s.val addr).toNat) :
      Raises (.readMemory dst addr) s (.addressOutOfRange (s.val addr))
  | writeRange {s addr src} (h : memWords ≤ (s.val addr).toNat) :
      Raises (.writeMemory addr src) s (.addressOutOfRange (s.val addr))

/-- The next states of an instruction. -/
inductive Effect : Instr → State → State → Prop where
  | raised {i s c} (h : Raises i s c) : Effect i s (s.raise c)
  | register {i s r v} (hdst : i.destination = some (.reg r)) (hv : resultOf s i = some v) : Effect i s (s.setReg r v)
  | push {s src} (h : s.stackFull = false) : Effect (.push src) s (s.push (s.val src))
  | pop {s r v rest} (h : s.stack = v :: rest) : Effect (.pop (.reg r)) s ((s.setStack rest).setReg r v)
  | jmp {s target} : Effect (.jmp target) s (s.setIp (s.val target))
  | jumpIfTrue {s cond target} :
      Effect (.jumpIfTrue cond target) s (s.setIp (if s.val cond = 0#16 then s.ip else s.val target))
  | jumpIfFalse {s cond target} :
      Effect (.jumpIfFalse cond target) s (s.setIp (if s.val cond = 0#16 then s.val target else s.ip))
  | store {s addr src} (h : (s.val addr).toNat < memWords) :
      Effect (.writeMemory addr src) s (s.setMem (s.mem.write (s.val addr).toNat (s.val src)))
  | call {s target} (h : s.stackFull = false) : Effect (.call target) s ((s.push s.ip).setIp (s.val target))
  | retHalt {s} (h : s.stack = []) : Effect .ret s s.halt
  | ret {s v rest} (h : s.stack = v :: rest) : Effect .ret s ((s.setStack rest).setIp v)
  | output {s src} : Effect (.output src) s (s.outAppend ((s.val src).setWidth 8))
  | block {s dst} (h : s.inq = []) : Effect (.input dst) s s.block
  | input {s r w rest} (h : s.inq = w :: rest) : Effect (.input (.reg r)) s ((s.setInq rest).setReg r w)
  | halt {s} : Effect .halt s s.halt
  | noop {s} : Effect .noop s s

/-- An instruction that ends by writing `v` to its destination raises or writes it. -/
theorem writeDestination_effect {i : Instr} {s : State} {dst : Operand} {v : Word} (hdst : i.destination = some dst)
    (hv : resultOf s i = some v) : ∃ t, writeDestination dst v s = .next t ∧ Effect i s t := by
  rcases withDestination_cases dst s (fun r => s.setReg r v) with ⟨l, rfl, e⟩ | ⟨r, rfl, e⟩
  · exact ⟨_, e, .raised (.literal hdst)⟩
  · exact ⟨_, e, .register hdst hv⟩

theorem execPush_effect (src : Operand) (s : State) : ∃ t, execPush src s = .next t ∧ Effect (.push src) s t := by
  unfold execPush
  cases h : s.stackFull
  · exact ⟨_, rfl, .push h⟩
  · exact ⟨_, rfl, .raised (.pushFull h)⟩

theorem execPop_effect (dst : Operand) (s : State) : ∃ t, execPop dst s = .next t ∧ Effect (.pop dst) s t := by
  unfold execPop
  rcases s.pop_cases with ⟨h, e⟩ | ⟨v, rest, h, e⟩ <;> rw [e]
  · exact ⟨_, rfl, .raised (.underflow h)⟩
  · cases dst with
    | lit l => exact ⟨_, rfl, .raised (.literal rfl)⟩
    | reg r => exact ⟨_, rfl, .pop h⟩

theorem execJumpIfTrue_effect (cond target : Operand) (s : State) :
    ∃ t, execJumpIfTrue cond target s = .next t ∧ Effect (.jumpIfTrue cond target) s t := by
  refine ⟨_, ?_, .jumpIfTrue⟩
  by_cases h : s.val cond = 0#16 <;> simp [execJumpIfTrue, h]
  rfl

theorem execJumpIfFalse_effect (cond target : Operand) (s : State) :
    ∃ t, execJumpIfFalse cond target s = .next t ∧ Effect (.jumpIfFalse cond target) s t := by
  refine ⟨_, ?_, .jumpIfFalse⟩
  by_cases h : s.val cond = 0#16 <;> simp [execJumpIfFalse, h]
  rfl

theorem execModulo_effect (dst a b : Operand) (s : State) :
    ∃ t, execModulo dst a b s = .next t ∧ Effect (.modulo dst a b) s t := by
  unfold execModulo
  by_cases h : s.val b = 0#16
  · rw [if_pos h]
    exact ⟨_, rfl, .raised (.zeroDivisor h)⟩
  · rw [if_neg h]
    exact writeDestination_effect rfl (by simp [resultOf, h])

theorem execReadMemory_effect (dst addr : Operand) (s : State) :
    ∃ t, execReadMemory dst addr s = .next t ∧ Effect (.readMemory dst addr) s t := by
  unfold execReadMemory
  cases h : s.memRead (s.val addr) with
  | none => exact ⟨_, rfl, .raised (.readRange (State.memRead_eq_none.mp h))⟩
  | some v => exact writeDestination_effect rfl h

theorem execWriteMemory_effect (addr src : Operand) (s : State) :
    ∃ t, execWriteMemory addr src s = .next t ∧ Effect (.writeMemory addr src) s t := by
  unfold execWriteMemory
  cases h : s.memWrite (s.val addr) (s.val src) with
  | none => exact ⟨_, rfl, .raised (.writeRange (State.memWrite_eq_none.mp h))⟩
  | some t =>
    obtain ⟨ha, rfl⟩ := State.memWrite_eq_some.mp h
    exact ⟨_, rfl, .store ha⟩

theorem execCall_effect (target : Operand) (s : State) :
    ∃ t, execCall target s = .next t ∧ Effect (.call target) s t := by
  unfold execCall
  cases h : s.stackFull
  · exact ⟨_, rfl, .call h⟩
  · exact ⟨_, rfl, .raised (.callFull h)⟩

theorem execReturn_effect (s : State) : ∃ t, execReturn s = .next t ∧ Effect .ret s t := by
  unfold execReturn
  rcases s.pop_cases with ⟨h, e⟩ | ⟨v, rest, h, e⟩ <;> rw [e]
  · exact ⟨_, rfl, .retHalt h⟩
  · exact ⟨_, rfl, .ret h⟩

theorem execInput_effect (dst : Operand) (s : State) : ∃ t, execInput dst s = .next t ∧ Effect (.input dst) s t := by
  unfold execInput
  rcases s.inqTake_cases with ⟨h, e⟩ | ⟨w, rest, h, e⟩ <;> rw [e]
  · exact ⟨_, rfl, .block h⟩
  · cases dst with
    | lit l => exact ⟨_, rfl, .raised (.literal rfl)⟩
    | reg r => exact ⟨_, rfl, .input h⟩

/-- Every instruction answers a next state, one of `Effect`'s. -/
theorem exec_effect (i : Instr) (s : State) : ∃ t, exec i s = .next t ∧ Effect i s t := by
  cases i with
  | halt => exact ⟨_, rfl, .halt⟩
  | set dst src => exact writeDestination_effect rfl rfl
  | push src => exact execPush_effect src s
  | pop dst => exact execPop_effect dst s
  | eq dst a b => exact writeDestination_effect rfl rfl
  | gt dst a b => exact writeDestination_effect rfl rfl
  | jmp target => exact ⟨_, rfl, .jmp⟩
  | jumpIfTrue cond target => exact execJumpIfTrue_effect cond target s
  | jumpIfFalse cond target => exact execJumpIfFalse_effect cond target s
  | add dst a b => exact writeDestination_effect rfl rfl
  | multiply dst a b => exact writeDestination_effect rfl rfl
  | modulo dst a b => exact execModulo_effect dst a b s
  | and dst a b => exact writeDestination_effect rfl rfl
  | or dst a b => exact writeDestination_effect rfl rfl
  | not dst a => exact writeDestination_effect rfl rfl
  | readMemory dst addr => exact execReadMemory_effect dst addr s
  | writeMemory addr src => exact execWriteMemory_effect addr src s
  | call target => exact execCall_effect target s
  | ret => exact execReturn_effect s
  | output src => exact ⟨_, rfl, .output⟩
  | input dst => exact execInput_effect dst s
  | noop => exact ⟨_, rfl, .noop⟩

/-- Inversion: what is known of a next state of `exec`. -/
theorem exec_eq_next {i : Instr} {s t : State} (h : exec i s = .next t) : Effect i s t := by
  obtain ⟨u, e, he⟩ := exec_effect i s
  rw [e, Host.Outcome.next.injEq] at h
  exact h ▸ he

end Sys2Proof.Machine
end

