-- ==== Sys2Proof/Laws/Step.lean ====
section
/-! SUPPORT. What fetching, decoding and a step can do, said once. -/

namespace Sys2Proof.Machine

/-! ### Frames -/

/-- Taking an error changes `state` and nothing else. -/
theorem State.raised_raise (s : State) (c : Cause) : State.raised c s (s.raise c) := by
  simp [State.raised, State.sameData]

/-- Writing a register changes that register and nothing else. -/
theorem State.onlyRegister_setReg (s : State) (r : Fin 8) (v : Word) : State.onlyRegister r s (s.setReg r v) := by
  simp +contextual [State.onlyRegister, State.sameElsewhere, State.getReg_setReg_other]

/-- A decode failure leaves all data as it was. -/
theorem State.sameData_decodeFailure (s : State) (e : DecodeError) (n : Nat) :
    State.sameData s (s.decodeFailure e n) := by
  simp [State.sameData]

/-! ### Fetching -/

/-- The words that stand at an address are the first of the window there. -/
theorem Memory.window_of_holdsAt {s : State} {a : Nat} {ws : List Word} (n : Nat) (h : s.holdsAt a ws)
    (hn : ws.length ≤ n) : s.mem.window n a = ws ++ s.mem.window (n - ws.length) (a + ws.length) := by
  induction ws generalizing a n with
  | nil => simp
  | cons w ws ih =>
    obtain ⟨m, rfl⟩ : ∃ m, n = m + 1 := ⟨n - 1, by simp only [List.length_cons] at hn; omega⟩
    obtain ⟨hlt, hw⟩ := h 0 w (by simp)
    have htail : s.holdsAt (a + 1) ws := fun k v hk => by
      have := h (k + 1) v (by simpa using hk)
      rw [show a + 1 + k = a + (k + 1) by omega]
      exact this
    have hrest := ih m htail (by simpa using hn)
    simp only [Memory.window, List.length_cons, List.cons_append]
    rw [if_pos (by simpa using hlt), hrest, show m + 1 - (ws.length + 1) = m - ws.length by omega,
      show a + 1 + ws.length = a + (ws.length + 1) by omega, show s.mem.read a = w by simpa using hw]

theorem State.fetchWindow_of_holdsAt {s : State} {ws : List Word} (h : s.holdsAt s.ip.toNat ws) (hn : ws.length ≤ 4) :
    s.fetchWindow = ws ++ s.mem.window (4 - ws.length) (s.ip.toNat + ws.length) :=
  Memory.window_of_holdsAt 4 h hn

/-- Memory ends at 32768: a window from there on is empty. -/
theorem Memory.window_beyond (m : Memory) (n : Nat) {a : Nat} (h : memWords ≤ a) : m.window n a = [] := by
  cases n with
  | zero => rfl
  | succ n => simp [Memory.window, Nat.not_lt.mpr h]

/-- A window depends on the words of its addresses only. -/
theorem Memory.window_congr {m m' : Memory} (n a : Nat)
    (h : ∀ k, k < n → a + k < memWords → m'.read (a + k) = m.read (a + k)) : m'.window n a = m.window n a := by
  induction n generalizing a with
  | zero => rfl
  | succ n ih =>
    by_cases ha : a < memWords
    · have hhead := h 0 (Nat.succ_pos n) ha
      have htail := ih (a + 1) fun k hk hlt => by
        have := h (k + 1) (by omega) (by omega)
        rwa [show a + 1 + k = a + (k + 1) by omega]
      simp only [Memory.window, ha, if_true, htail]
      rw [show m'.read a = m.read a by simpa using hhead]
    · simp [Memory.window, ha]

/-- What the decoder does with an opcode word, by the word's arity in the opcode map. -/
theorem decode_of_arity {w : Word} {n : Nat} (h : arity w.toNat = some n) :
    (n = 0 ∧ ∃ i, ∀ words, decode (w :: words) = .instr i 1) ∨
    (n = 1 ∧ ∃ mk, ∀ words, decode (w :: words) = decode1 mk words) ∨
    (n = 2 ∧ ∃ mk, ∀ words, decode (w :: words) = decode2 mk words) ∨
    (n = 3 ∧ ∃ mk, ∀ words, decode (w :: words) = decode3 mk words) := by
  simp only [decode]
  generalize w.toNat = k at h ⊢
  unfold arity at h
  split at h <;> simp only [Option.some.injEq, reduceCtorEq] at h <;> subst h
  all_goals first
    | exact .inl ⟨rfl, _, fun _ => rfl⟩
    | exact .inr (.inl ⟨rfl, _, fun _ => rfl⟩)
    | exact .inr (.inr (.inl ⟨rfl, _, fun _ => rfl⟩))
    | exact .inr (.inr (.inr ⟨rfl, _, fun _ => rfl⟩))

theorem arity_eq_none {k : Nat} : arity k = none ↔ 21 < k := by
  rcases Nat.lt_or_ge 21 k with h | h
  · obtain ⟨d, rfl⟩ : ∃ d, k = d + 22 := ⟨k - 22, by omega⟩
    exact ⟨fun _ => h, fun _ => rfl⟩
  · interval_cases k <;> simp [arity]

/-- An opcode word above 21 is unknown, whatever follows it. -/
theorem decode_unknown {w : Word} (h : 21 < w.toNat) (words : List Word) :
    decode (w :: words) = .fail (.unknownOpcode w) 1 := by
  simp only [decode]
  generalize w.toNat = k at h ⊢
  obtain ⟨d, rfl⟩ : ∃ d, k = d + 22 := ⟨k - 22, by omega⟩
  rfl

/-! ### A step -/

/-- Everything one step of a running core can do. -/
theorem cycle_cases (s : State) :
    (∃ e n, s.decoded = .fail e n ∧ cycle s = .next (s.decodeFailure e n)) ∨
    (∃ i n, s.decoded = .instr i n ∧ s.config.cycleCeiling ≤ s.cycles + 1 ∧
      cycle s = .next ((s.prepared n).raise .cycleCeiling)) ∨
    (∃ i n, s.decoded = .instr i n ∧ s.cycles + 1 < s.config.cycleCeiling ∧ cycle s = exec i (s.prepared n)) := by
  unfold cycle
  cases hd : s.decoded with
  | fail e n => exact .inl ⟨e, n, rfl, rfl⟩
  | instr i n =>
    by_cases hc : s.config.cycleCeiling ≤ s.cycles + 1
    · exact .inr (.inl ⟨i, n, rfl, hc, by simp [State.ceilingReached, hc]⟩)
    · exact .inr (.inr ⟨i, n, rfl, by omega, by simp [State.ceilingReached, hc]⟩)

theorem step_of_running {s : State} (h : s.state = .running) : step s = cycle s := by
  simp [step, h]

theorem step_of_not_running {s : State} (h : s.state ≠ .running) : step s = .next s.enterRun := by
  simp [step, h]

theorem State.enterRun_of_terminal {s : State} (h : s.state.terminal = true) : s.enterRun = s := by
  unfold State.enterRun
  cases hs : s.state <;> simp_all [ExecState.terminal]

/-- What a step can do, for proofs about every step. -/
theorem step_cases {s t : State} (h : step s = .next t) :
    (s.state ≠ .running ∧ t = s.enterRun) ∨
    (s.state = .running ∧ ∃ e n, s.decoded = .fail e n ∧ t = s.decodeFailure e n) ∨
    (s.state = .running ∧ ∃ i n, s.decoded = .instr i n ∧ s.config.cycleCeiling ≤ s.cycles + 1 ∧
      t = (s.prepared n).raise .cycleCeiling) ∨
    (s.state = .running ∧ ∃ i n, s.decoded = .instr i n ∧ s.cycles + 1 < s.config.cycleCeiling ∧
      exec i (s.prepared n) = .next t ∧ Effect i (s.prepared n) t) := by
  by_cases hr : s.state = .running
  · rw [step_of_running hr] at h
    rcases cycle_cases s with ⟨e, n, hd, hc⟩ | ⟨i, n, hd, hb, hc⟩ | ⟨i, n, hd, hb, hc⟩ <;> rw [hc] at h
    · exact .inr (.inl ⟨hr, e, n, hd, (Host.Outcome.next.inj h).symm⟩)
    · exact .inr (.inr (.inl ⟨hr, i, n, hd, hb, (Host.Outcome.next.inj h).symm⟩))
    · exact .inr (.inr (.inr ⟨hr, i, n, hd, hb, h, exec_eq_next h⟩))
  · rw [step_of_not_running hr] at h
    exact .inl ⟨hr, (Host.Outcome.next.inj h).symm⟩

end Sys2Proof.Machine
end

