-- ==== Sys2Proof/Machine/Listing.lean ====
section
/-! DEFINITION. The textual form of instructions, which the spec keeps as its assembly syntax (spec/30_encoding.md R58
to R60; the notational choices are decision D21, log entry 19), and the decoder applied to an address for offline
listing (spec/49_run_loop_host.md R132). It executes nothing and changes no state. -/

namespace Sys2Proof.Machine

/-- The canonical mnemonic (R50, R59). -/
def mnemonicOf : Instr → String
  | .halt => "halt"
  | .set _ _ => "set"
  | .push _ => "push"
  | .pop _ => "pop"
  | .eq _ _ _ => "eq"
  | .gt _ _ _ => "gt"
  | .jmp _ => "jmp"
  | .jumpIfTrue _ _ => "jump-if-true"
  | .jumpIfFalse _ _ => "jump-if-false"
  | .add _ _ _ => "add"
  | .multiply _ _ _ => "multiply"
  | .modulo _ _ _ => "modulo"
  | .and _ _ _ => "and"
  | .or _ _ _ => "or"
  | .not _ _ => "not"
  | .readMemory _ _ => "read-memory"
  | .writeMemory _ _ => "write-memory"
  | .call _ => "call"
  | .ret => "return"
  | .output _ => "output"
  | .input _ => "input"
  | .noop => "no-op"

/-- The canonical name of an alias (the table of R59); any other name stands for itself. -/
def canonicalMnemonic : String → String
  | "out" => "output"
  | "jt" => "jump-if-true"
  | "jf" => "jump-if-false"
  | "mult" => "multiply"
  | "mod" => "modulo"
  | "rmem" => "read-memory"
  | "wmem" => "write-memory"
  | "ret" => "return"
  | "in" => "input"
  | "noop" => "no-op"
  | name => name

/-- "A bare decimal literal or a marked register reference" (R58). -/
def operandText : Operand → String
  | .lit v => toString v.toNat
  | .reg i => "r" ++ toString i.val

/-- `<address>: <mnemonic>(<args>)` (R58). -/
def listingLine (address : Nat) (i : Instr) : String :=
  toString address ++ ": " ++ mnemonicOf i ++ "(" ++ ", ".intercalate (i.operands.map operandText) ++ ")"

/-- `<address>: data(<decimal word>)` (R60). -/
def dataLine (address : Nat) (w : Word) : String :=
  toString address ++ ": data(" ++ toString w.toNat ++ ")"

/-- The length of the instruction at address `a0`: `1 + arity(MemRead(a0,1))` (R63). `none` where the word there is no
opcode, or there is no such address. -/
def Memory.lengthAt (m : Memory) (a0 : Nat) : Option Nat :=
  if a0 < memWords then instructionLength (m.read a0) else none

/-- A data line for each of the words from an address on. -/
def dataLines : Nat → List Word → List String
  | _, [] => []
  | address, w :: ws => dataLine address w :: dataLines (address + 1) ws

/-- The listing lines at an address and the address of the next ones (R63, R132). Where the words there do not decode they
are listed as data: all the words of the length R63 gives, as far as memory has them, or the one word where it gives none
(log entry 19). -/
def listAt (m : Memory) (address : Nat) : List String × Nat :=
  match decode (m.window 4 address) with
  | .instr i used => ([listingLine address i], address + used)
  | .fail _ _ =>
    let length := (m.lengthAt address).getD 1
    (dataLines address (m.window length address), address + length)

/-- The listing from an address on, of at most `n` instructions or undecodable groups of words. -/
def listing (m : Memory) : Nat → Nat → List String
  | 0, _ => []
  | n + 1, address =>
    if address < memWords then (listAt m address).1 ++ listing m n (listAt m address).2 else []

end Sys2Proof.Machine
end

