-- ==== Sys2Proof/Laws/Listing.lean ====
section
/-! SUPPORT. The length of an instruction (spec/30_encoding.md R63), and how far a listing goes at each address. -/

namespace Sys2Proof

open Machine

/-- The length is undefined exactly for the words that are no opcode. -/
theorem instructionLength_eq_none {w : Word} : instructionLength w = none ↔ 21 < w.toNat := by
  simp [instructionLength, arity_eq_none]

/-- A decoded instruction has used the words of the length that its opcode word gives. -/
theorem instructionLength_of_decode {w : Word} {words : List Word} {i : Instr} {n : Nat}
    (h : decode (w :: words) = .instr i n) : instructionLength w = some n := by
  cases hw : arity w.toNat with
  | none => simp [decode_unknown (arity_eq_none.1 hw)] at h
  | some k =>
    simp only [instructionLength, hw, Option.map_some, Option.some.injEq]
    rcases decode_of_arity hw with ⟨rfl, _, e⟩ | ⟨rfl, _, e⟩ | ⟨rfl, _, e⟩ | ⟨rfl, _, e⟩ <;> rw [e] at h
    · exact (DecodeResult.instr.inj h).2
    · obtain ⟨_, _, _, _, _, hn⟩ := decode1_eq_instr h
      exact hn.symm
    · obtain ⟨_, _, _, _, _, _, _, hn⟩ := decode2_eq_instr h
      exact hn.symm
    · obtain ⟨_, _, _, _, _, _, _, _, _, hn⟩ := decode3_eq_instr h
      exact hn.symm

namespace Machine

/-- A listing goes on after the length R63 gives, whether or not the words decode, and after one word where it gives
none. -/
theorem listAt_next {m : Memory} {a : Nat} (h : a < memWords) :
    (listAt m a).2 = a + (m.lengthAt a).getD 1 := by
  unfold listAt
  cases hd : decode (m.window 4 a) with
  | fail e used => rfl
  | instr i used =>
    rw [Memory.window, if_pos h] at hd
    simp [Memory.lengthAt, h, instructionLength_of_decode hd]

end Machine

end Sys2Proof
end

