-- ==== Sys2Proof/Laws/PerInstr.lean ====
section
/-! SUPPORT. Statements about every instruction as syntax, one lemma per constructor of Instr. The family
`ArityOfEncoding` says that an instruction's opcode word has, in the opcode map of spec/30_encoding.md R50, as many
operand words as the instruction has operands (R63). -/

def Sys2Proof.Laws.ArityOfEncoding.Statement (i : Sys2Proof.Instr) : Prop :=
  Sys2Proof.arity i.opcode.toNat = some i.operands.length

theorem Sys2Proof.Laws.ArityOfEncoding.halt :
    Sys2Proof.Laws.ArityOfEncoding.Statement (.halt) := rfl

theorem Sys2Proof.Laws.ArityOfEncoding.set (a b : Sys2Proof.Operand) :
    Sys2Proof.Laws.ArityOfEncoding.Statement (.set a b) := rfl

theorem Sys2Proof.Laws.ArityOfEncoding.push (a : Sys2Proof.Operand) :
    Sys2Proof.Laws.ArityOfEncoding.Statement (.push a) := rfl

theorem Sys2Proof.Laws.ArityOfEncoding.pop (a : Sys2Proof.Operand) :
    Sys2Proof.Laws.ArityOfEncoding.Statement (.pop a) := rfl

theorem Sys2Proof.Laws.ArityOfEncoding.eq (a b c : Sys2Proof.Operand) :
    Sys2Proof.Laws.ArityOfEncoding.Statement (.eq a b c) := rfl

theorem Sys2Proof.Laws.ArityOfEncoding.gt (a b c : Sys2Proof.Operand) :
    Sys2Proof.Laws.ArityOfEncoding.Statement (.gt a b c) := rfl

theorem Sys2Proof.Laws.ArityOfEncoding.jmp (a : Sys2Proof.Operand) :
    Sys2Proof.Laws.ArityOfEncoding.Statement (.jmp a) := rfl

theorem Sys2Proof.Laws.ArityOfEncoding.jumpIfTrue (a b : Sys2Proof.Operand) :
    Sys2Proof.Laws.ArityOfEncoding.Statement (.jumpIfTrue a b) := rfl

theorem Sys2Proof.Laws.ArityOfEncoding.jumpIfFalse (a b : Sys2Proof.Operand) :
    Sys2Proof.Laws.ArityOfEncoding.Statement (.jumpIfFalse a b) := rfl

theorem Sys2Proof.Laws.ArityOfEncoding.add (a b c : Sys2Proof.Operand) :
    Sys2Proof.Laws.ArityOfEncoding.Statement (.add a b c) := rfl

theorem Sys2Proof.Laws.ArityOfEncoding.multiply (a b c : Sys2Proof.Operand) :
    Sys2Proof.Laws.ArityOfEncoding.Statement (.multiply a b c) := rfl

theorem Sys2Proof.Laws.ArityOfEncoding.modulo (a b c : Sys2Proof.Operand) :
    Sys2Proof.Laws.ArityOfEncoding.Statement (.modulo a b c) := rfl

theorem Sys2Proof.Laws.ArityOfEncoding.and (a b c : Sys2Proof.Operand) :
    Sys2Proof.Laws.ArityOfEncoding.Statement (.and a b c) := rfl

theorem Sys2Proof.Laws.ArityOfEncoding.or (a b c : Sys2Proof.Operand) :
    Sys2Proof.Laws.ArityOfEncoding.Statement (.or a b c) := rfl

theorem Sys2Proof.Laws.ArityOfEncoding.not (a b : Sys2Proof.Operand) :
    Sys2Proof.Laws.ArityOfEncoding.Statement (.not a b) := rfl

theorem Sys2Proof.Laws.ArityOfEncoding.readMemory (a b : Sys2Proof.Operand) :
    Sys2Proof.Laws.ArityOfEncoding.Statement (.readMemory a b) := rfl

theorem Sys2Proof.Laws.ArityOfEncoding.writeMemory (a b : Sys2Proof.Operand) :
    Sys2Proof.Laws.ArityOfEncoding.Statement (.writeMemory a b) := rfl

theorem Sys2Proof.Laws.ArityOfEncoding.call (a : Sys2Proof.Operand) :
    Sys2Proof.Laws.ArityOfEncoding.Statement (.call a) := rfl

theorem Sys2Proof.Laws.ArityOfEncoding.ret :
    Sys2Proof.Laws.ArityOfEncoding.Statement (.ret) := rfl

theorem Sys2Proof.Laws.ArityOfEncoding.output (a : Sys2Proof.Operand) :
    Sys2Proof.Laws.ArityOfEncoding.Statement (.output a) := rfl

theorem Sys2Proof.Laws.ArityOfEncoding.input (a : Sys2Proof.Operand) :
    Sys2Proof.Laws.ArityOfEncoding.Statement (.input a) := rfl

theorem Sys2Proof.Laws.ArityOfEncoding.noop :
    Sys2Proof.Laws.ArityOfEncoding.Statement (.noop) := rfl
end

