-- ==== Sys2Proof/Tests/Slice0.lean ====
section
/-! SUPPORT. The model's own tests. The expected results are the spec's: spec/95_test_vectors.md (the vector's name is in
the comment) and the rules' own examples. Then, for each statement of Certificates/Slice0/Obligations.lean that has
hypotheses, concrete states and operands that meet them together, each clause at a boundary value of its range. -/

namespace Sys2Proof.Tests

open Sys2Proof.Machine

/-- The fresh machine with these words as its image, running (the "start" of spec/95_test_vectors.md Part 2). -/
def start (words : List Nat) : State :=
  { State.reset with mem := Memory.ofWords 0 (words.map (BitVec.ofNat 16)), state := .running }

/-- The same with the first registers set. -/
def startWith (regs words : List Nat) : State :=
  { start words with x := Vector.ofFn fun i => BitVec.ofNat 16 (regs.getD i.val 0) }

/-- A running machine with these words at the top of memory, the last of them at 32767, and `ip` at the first of them. -/
def atTop (words : List Nat) : State :=
  { State.reset with
    mem := Memory.ofWords (32768 - words.length) (words.map (BitVec.ofNat 16)), ip := BitVec.ofNat 16 (32768 - words.length),
    state := .running }

/-- The default configuration with another ceiling. -/
def withCeiling (n : Nat) : Config := { defaultConfig with cycleCeiling := n }

/-- The default configuration with a finite stack. -/
def withStack (n : Nat) : Config := { defaultConfig with stackCapacity := some n }

/-- The state a step or an instruction answers; every step answers one. -/
def after : Result → State
  | .next t => t
  | .fault _ => State.reset
  | .refused _ => State.reset

/-! ### WellFormed: an ill-formed term for each check -/

theorem test_wf_literal_too_large : (Instr.push (.lit 32768#16)).wf = false := by decide
theorem test_wf_literal_too_large_last : (Instr.add (.reg 0) (.lit 32767#16) (.lit 32768#16)).wf = false := by decide
theorem test_wf_literal_destination : (Instr.set (.lit 32767#16) (.reg 7)).wf = true := by decide

/-! ### Decode: a word for each constructor, written out from the tables of R49 and R50 -/

theorem test_decode_halt : decode [0x0000#16] = .instr .halt 1 := by decide
theorem test_decode_set : decode [0x0001#16, 0x8000#16, 0x04D2#16] = .instr (.set (.reg 0) (.lit 1234#16)) 3 := by decide
theorem test_decode_push : decode [0x0002#16, 0x8003#16] = .instr (.push (.reg 3)) 2 := by decide
theorem test_decode_pop : decode [0x0003#16, 0x8004#16] = .instr (.pop (.reg 4)) 2 := by decide
theorem test_decode_eq : decode [0x0004#16, 0x8001#16, 0x8002#16, 0x0000#16] =
    .instr (.eq (.reg 1) (.reg 2) (.lit 0#16)) 4 := by decide
theorem test_decode_gt : decode [0x0005#16, 0x8001#16, 0x8002#16, 0x8003#16] =
    .instr (.gt (.reg 1) (.reg 2) (.reg 3)) 4 := by decide
theorem test_decode_jmp : decode [0x0006#16, 0x0003#16] = .instr (.jmp (.lit 3#16)) 2 := by decide
theorem test_decode_jump_if_true : decode [0x0007#16, 0x8000#16, 0x8001#16] =
    .instr (.jumpIfTrue (.reg 0) (.reg 1)) 3 := by decide
theorem test_decode_jump_if_false : decode [0x0008#16, 0x0002#16, 0x000A#16] =
    .instr (.jumpIfFalse (.lit 2#16) (.lit 10#16)) 3 := by decide
theorem test_decode_add : decode [0x0009#16, 0x8000#16, 0x8001#16, 0x0058#16] =
    .instr (.add (.reg 0) (.reg 1) (.lit 88#16)) 4 := by decide
theorem test_decode_multiply : decode [0x000A#16, 0x8005#16, 0x7FFF#16, 0x8006#16] =
    .instr (.multiply (.reg 5) (.lit 32767#16) (.reg 6)) 4 := by decide
theorem test_decode_modulo : decode [0x000B#16, 0x8000#16, 0x8001#16, 0x8002#16] =
    .instr (.modulo (.reg 0) (.reg 1) (.reg 2)) 4 := by decide
theorem test_decode_and : decode [0x000C#16, 0x8000#16, 0x5555#16, 0x2AAA#16] =
    .instr (.and (.reg 0) (.lit 21845#16) (.lit 10922#16)) 4 := by decide
theorem test_decode_or : decode [0x000D#16, 0x8000#16, 0x8001#16, 0x0001#16] =
    .instr (.or (.reg 0) (.reg 1) (.lit 1#16)) 4 := by decide
theorem test_decode_not : decode [0x000E#16, 0x8000#16, 0x7FFF#16] = .instr (.not (.reg 0) (.lit 32767#16)) 3 := by decide
theorem test_decode_read_memory : decode [0x000F#16, 0x8000#16, 0x0003#16] =
    .instr (.readMemory (.reg 0) (.lit 3#16)) 3 := by decide
theorem test_decode_write_memory : decode [0x0010#16, 0x0006#16, 0x8000#16] =
    .instr (.writeMemory (.lit 6#16) (.reg 0)) 3 := by decide
theorem test_decode_call : decode [0x0011#16, 0x0064#16] = .instr (.call (.lit 100#16)) 2 := by decide
theorem test_decode_return : decode [0x0012#16] = .instr .ret 1 := by decide
theorem test_decode_output : decode [0x0013#16, 0x8000#16] = .instr (.output (.reg 0)) 2 := by decide
theorem test_decode_input : decode [0x0014#16, 0x8007#16] = .instr (.input (.reg 7)) 2 := by decide
theorem test_decode_noop : decode [0x0015#16] = .instr .noop 1 := by decide

/-- U6: the first invalid operand wins, and the words after it are not read. -/
theorem test_decode_first_invalid_operand :
    decode [4#16, 32776#16, 32777#16, 1#16] = .fail (.invalidOperand 32776#16) 2 := by decide

/-- The bits of the opcode table: the second word in bits 31..16, the third in 47..32. -/
theorem test_decode_table_word :
    decodeTableWord 48 0x7FFF8000000E = some (.not (.reg 0) (.lit 32767#16)) := by decide
theorem test_decode_table_word_short :
    decodeTableWord 16 0x7FFF8000000E = some (.not (.lit 0#16) (.lit 0#16)) := by decide
theorem test_with_fetch_word :
    (State.reset.withFetchWord 48 0x7FFF8001000E).decoded = .instr (.not (.reg 1) (.lit 32767#16)) 3 := by decide
theorem test_with_fetch_word_runs :
    (after (step (State.reset.withFetchWord 48 0x7FFF8001000E))).ip = 3#16 := by decide

/-! ### One step of each instruction -/

/-- S2. -/
theorem test_set : let t := after (step (startWith [0, 77] [1, 32775, 32769]))
    t.getReg 7 = 77#16 ∧ t.ip = 3#16 ∧ t.cycles = 1 := by decide
/-- S6. -/
theorem test_set_literal_destination : let t := after (step (start [1, 0, 5]))
    t.state = .errored (.writeToImmediate 0#16) ∧ t.ip = 3#16 ∧ t.cycles = 1 := by decide
/-- S8. -/
theorem test_push : let t := after (step { startWith [0, 0, 0, 555] [2, 32771] with stack := [2#16, 1#16] })
    t.stack = [555#16, 2#16, 1#16] ∧ t.ip = 2#16 := by decide
/-- R145: a finite stack that is full. -/
theorem test_push_full : let s := { start [2, 7] with stack := [4#16], config := withStack 1 }
    (after (step s)).state = .errored .stackOverflow ∧ (after (step s)).stack = [4#16] := by decide
/-- S9. -/
theorem test_pop : let t := after (step { start [3, 32772] with stack := [2#16, 1#16] })
    t.getReg 4 = 2#16 ∧ t.stack = [1#16] ∧ t.ip = 2#16 := by decide
/-- S12. -/
theorem test_pop_empty_before_literal : (after (step (start [3, 9]))).state = .errored .stackUnderflow := by decide
/-- Q1. -/
theorem test_eq : (after (step (startWith [7] [4, 32768, 32768, 32768]))).getReg 0 = 1#16 := by decide
/-- Q3. -/
theorem test_eq_whole_word :
    (after (step (startWith [0, 9, 32768] [4, 32769, 32770, 0]))).getReg 1 = 0#16 := by decide
/-- Q2. -/
theorem test_gt : (after (step (startWith [9, 9, 40000, 32767] [5, 32769, 32770, 32771]))).getReg 1 = 1#16 := by decide
/-- The row 5, 6 of 2.2: the operands' order. -/
theorem test_gt_order : (after (step (startWith [9] [5, 32768, 5, 6]))).getReg 0 = 0#16 := by decide
/-- J2. -/
theorem test_jmp : (after (step (startWith [0, 200] [6, 32769]))).ip = 200#16 := by decide
/-- J4. -/
theorem test_jmp_unchecked : let t := after (step (startWith [40000] [6, 32768]))
    t.ip = 40000#16 ∧ t.state = .running := by decide
/-- J7. -/
theorem test_jump_if_true : (after (step (startWith [32767, 60] [7, 32768, 32769]))).ip = 60#16 := by decide
/-- J6. -/
theorem test_jump_if_true_falls_through : (after (step (start [7, 0, 50]))).ip = 3#16 := by decide
/-- J11. -/
theorem test_jump_if_false : (after (step (startWith [0, 60] [8, 32768, 32769]))).ip = 60#16 := by decide
/-- J10. -/
theorem test_jump_if_false_falls_through : (after (step (start [8, 1, 50]))).ip = 3#16 := by decide
/-- A1. -/
theorem test_add : (after (step (startWith [20000] [9, 32768, 32768, 32768]))).getReg 0 = 7232#16 := by decide
/-- A2. -/
theorem test_add_exact : (after (step (startWith [1, 65535] [9, 32768, 32769, 1]))).getReg 0 = 0#16 := by decide
/-- The row 32758, 15 of 2.4. -/
theorem test_multiply : (after (step (start [10, 32768, 32758, 15]))).getReg 0 = 32618#16 := by decide
/-- A3. -/
theorem test_multiply_exact : (after (step (startWith [0, 65535] [10, 32768, 32769, 32769]))).getReg 0 = 1#16 := by decide
/-- A5. -/
theorem test_modulo :
    (after (step (startWith [0, 50000, 60000] [11, 32768, 32769, 32770]))).getReg 0 = 17232#16 := by decide
/-- A7. -/
theorem test_modulo_by_zero_before_literal :
    (after (step (start [11, 5, 5, 0]))).state = .errored .moduloByZero := by decide
/-- The row 12345, 255 of 2.5. -/
theorem test_and : (after (step (start [12, 32768, 12345, 255]))).getReg 0 = 57#16 := by decide
/-- B3. -/
theorem test_and_sixteen_bits :
    (after (step (startWith [0, 65535, 49152] [12, 32768, 32769, 32770]))).getReg 0 = 49152#16 := by decide
/-- The row 12345, 255 of 2.5. -/
theorem test_or : (after (step (start [13, 32768, 12345, 255]))).getReg 0 = 12543#16 := by decide
/-- B4. -/
theorem test_or_sixteen_bits : (after (step (startWith [0, 32768] [13, 32768, 32769, 1]))).getReg 0 = 32769#16 := by decide
/-- The row 21845 of 2.5. -/
theorem test_not : (after (step (start [14, 32768, 21845]))).getReg 0 = 10922#16 := by decide
/-- B1. -/
theorem test_not_keeps_bit_15 : (after (step (startWith [0, 32768] [14, 32768, 32769]))).getReg 0 = 65535#16 := by decide
/-- M6. -/
theorem test_read_memory : (after (step (startWith [0, 2] [15, 32769, 32769]))).getReg 1 = 32769#16 := by decide
/-- M7. -/
theorem test_read_memory_out_of_range : let t := after (step (startWith [7, 32768] [15, 32768, 32769]))
    t.state = .errored (.addressOutOfRange 32768#16) ∧ t.getReg 0 = 7#16 := by decide
/-- M10. -/
theorem test_write_memory :
    (after (step (startWith [300, 65535] [16, 32768, 32769]))).memRead 300#16 = some 65535#16 := by decide
/-- M14. -/
theorem test_write_memory_out_of_range : let t := after (step (startWith [32775] [16, 32768, 1]))
    t.state = .errored (.addressOutOfRange 32775#16) ∧ t.mem = (start [16, 32768, 1]).mem := by decide
/-- K2. -/
theorem test_call : let t := after (step { startWith [9] [17, 32768] with stack := [1#16] })
    t.stack = [2#16, 1#16] ∧ t.ip = 9#16 := by decide
/-- The call of T3, the last instruction of memory. -/
theorem test_call_at_top : (after (step (atTop [17, 2]))).stack = [32768#16] := by decide
/-- K4. -/
theorem test_return : let t := after (step { start [18] with stack := [77#16, 5#16] })
    t.ip = 77#16 ∧ t.stack = [5#16] := by decide
/-- K5. -/
theorem test_return_empty : let t := after (step (start [18])); t.state = .halted ∧ t.ip = 1#16 ∧ t.cycles = 1 := by decide
/-- O2, after an earlier character. -/
theorem test_output : (after (step { start [19, 344] with outbuf := [65#8] })).outbuf = [65#8, 88#8] := by decide
/-- O3. -/
theorem test_output_low_bits : (after (step (startWith [65535] [19, 32768]))).outbuf = [255#8] := by decide
/-- N1. -/
theorem test_input : let t := after (step { start [20, 32768] with inq := [65#16, 66#16] })
    t.getReg 0 = 65#16 ∧ t.inq = [66#16] ∧ t.ip = 2#16 := by decide
/-- N5. -/
theorem test_input_blocks_before_literal : let t := after (step (start [20, 3]))
    t.state = .waitingForInput ∧ t.ip = 0#16 ∧ t.cycles = 1 := by decide
/-- H1. -/
theorem test_halt : let t := after (step (start [0])); t.state = .halted ∧ t.ip = 1#16 ∧ t.cycles = 1 := by decide
/-- H2. -/
theorem test_noop : after (step (start [21])) = { start [21] with ip := 1#16, cycles := 1 } := by decide

/-! ### The decoder's failures, the ceiling, the caller -/

/-- U3. -/
theorem test_unknown_opcode : let t := after (step (start [32768]))
    t.state = .errored (.unknownOpcode 32768#16) ∧ t.ip = 1#16 ∧ t.cycles = 0 := by decide
/-- U5. -/
theorem test_invalid_operand : let t := after (step (start [1, 32768, 32776]))
    t.state = .errored (.invalidOperand 32776#16) ∧ t.ip = 3#16 ∧ t.cycles = 0 := by decide
/-- The failing step of T2. -/
theorem test_operand_fetch_beyond_memory : let t := after (step (atTop [1, 32768]))
    t.state = .errored (.addressOutOfRange 32768#16) ∧ t.ip = 32768#16 ∧ t.cycles = 0 := by decide
/-- The last step of E6. -/
theorem test_ceiling : let t := after (step { start [6, 0] with cycles := 4, config := withCeiling 5 })
    t.state = .errored .cycleCeiling ∧ t.ip = 2#16 ∧ t.cycles = 5 := by decide
/-- X17. -/
theorem test_image :
    imageWords [0x09#8, 0x00#8, 0x00#8, 0x80#8, 0x01#8, 0x80#8, 0x58#8, 0x00#8, 0x13#8, 0x00#8, 0x00#8, 0x80#8, 0x00#8,
      0x00#8, 0xFF#8] = [9#16, 32768#16, 32769#16, 88#16, 19#16, 32768#16, 0#16] := by decide
/-- R127: a line of text, and the newline word. -/
theorem test_line : lineWords [111#16, 107#16] = [111#16, 107#16, 10#16] := by decide
/-- R58: its example lines. -/
theorem test_listing_jmp : listingLine 0 (.jmp (.lit 3#16)) = "0: jmp(3)" := by decide
theorem test_listing_not : listingLine 0 (.not (.reg 0) (.lit 32767#16)) = "0: not(r0, 32767)" := by decide
theorem test_listing_write : listingLine 3 (.writeMemory (.lit 6#16) (.reg 0)) = "3: write-memory(6, r0)" := by decide
theorem test_listing_halt : listingLine 9 .halt = "9: halt()" := by decide
/-- R60, R63: a word that is no opcode, one data line; its length is undefined. -/
theorem test_listing_data : listAt (start [42]).mem 0 = (["0: data(42)"], 1) := by decide
theorem test_length_not_opcode : (start [42]).mem.lengthAt 0 = none := by decide
/-- R63: `set` with an invalid operand still has the length 3. -/
theorem test_length_bad_operand : (start [1, 32776, 7]).mem.lengthAt 0 = some 3 := by decide
theorem test_listing_bad_operand :
    listAt (start [1, 32776, 7]).mem 0 = (["0: data(1)", "1: data(32776)", "2: data(7)"], 3) := by decide
/-- The same at the end of memory, which has no third word. -/
theorem test_listing_cut_short :
    listAt (atTop [1, 32775]).mem 32766 = (["32766: data(1)", "32767: data(32775)"], 32769) := by decide

/-! ### Witnesses: states and operands that meet the hypotheses of the statements -/

/-- `holdsAt` of a concrete list, by looking at each word. -/
theorem holdsAt_of {s : State} {a : Nat} {ws : List Word}
    (h : ∀ k : Fin ws.length, a + k.val < 32768 ∧ s.mem.read (a + k.val) = ws[k]) : s.holdsAt a ws := by
  intro k w hk
  obtain ⟨hlt, rfl⟩ := List.getElem?_eq_some_iff.1 hk
  exact h ⟨k, hlt⟩

/-- Whether an outcome is a next state. -/
def isNext : Result → Bool
  | .next _ => true
  | .fault _ => false
  | .refused _ => false

theorem next_after {r : Result} (h : isNext r = true) : r = .next (after r) := by
  cases r <;> simp_all [isNext, after]

/-- A stack of capacity 1, empty: not full. -/
def roomForOne : State := { start [2, 7] with config := withStack 1 }
/-- The same, full. -/
def noRoom : State := { roomForOne with stack := [4#16] }

/-- The two clauses of `Claims.writesDestination`, for each instruction that has a destination: a register, a literal. -/
theorem witness_writesDestination :
    (Instr.set (.reg 7) (.reg 0)).destination = some (.reg 7) ∧
      (Instr.set (.lit 32767#16) (.reg 0)).destination = some (.lit 32767#16) := by decide
theorem witness_PushAddsTopEntry : (start []).stackFull = false ∧ roomForOne.stackFull = false ∧ noRoom.stackFull = true := by
  decide
theorem witness_PopTakesTopEntry : (start []).stack = [] ∧ noRoom.stack = 4#16 :: [] := by decide
theorem witness_ModuloWritesRemainder :
    (startWith [0] []).val (.reg 0) = 0#16 ∧ (startWith [1] []).val (.reg 0) ≠ 0#16 := by decide
theorem witness_ReadMemoryLoadsWord :
    ((start []).val (.lit 32767#16)).toNat ≤ 32767 ∧ 32767 < ((startWith [32768] []).val (.reg 0)).toNat := by decide
theorem witness_WriteMemoryStoresWord :
    ((startWith [32767] []).val (.reg 0)).toNat ≤ 32767 ∧ 32767 < ((startWith [32768] []).val (.reg 0)).toNat := by decide
theorem witness_CallPushesReturnAddress : roomForOne.stackFull = false ∧ noRoom.stackFull = true := by decide
theorem witness_ReturnJumpsOrHalts : roomForOne.stack = [] ∧ noRoom.stack = 4#16 :: [] := by decide
theorem witness_InputTakesOldestOrBlocks :
    (start []).inq = [] ∧ ({ start [] with inq := [65#16] } : State).inq = 65#16 :: [] := by decide
/-- At the last address, and in the last cycle that leaves room. -/
theorem witness_NoopOnlyAdvances : let s : State := { atTop [21] with cycles := 4999998 }
    s.state = .running ∧ s.holdsAt s.ip.toNat [21#16] ∧ s.cycles + 1 < s.config.cycleCeiling ∧ s.ip = 32767#16 :=
  ⟨by decide, (by apply holdsAt_of; decide), by decide, by decide⟩
theorem witness_OperandWordClasses :
    (32767#16).toNat ≤ 32767 ∧ (32768#16).toNat = 32768 + (0 : Fin 8).val ∧ (32775#16).toNat = 32768 + (7 : Fin 8).val ∧
      32776 ≤ (32776#16).toNat := by decide
theorem witness_DecodeAndEncodeAreInverse :
    (Instr.set (.lit 32767#16) (.reg 7)).wf = true ∧
      decode [1#16, 32767#16, 32775#16, 9#16] = .instr (.set (.lit 32767#16) (.reg 7)) 3 := by decide
theorem witness_DecoderReadsNoFurther :
    decode [4#16, 32775#16, 0#16, 32767#16] = .instr (.eq (.reg 7) (.lit 0#16) (.lit 32767#16)) 4 ∧
      decode [22#16, 5#16] = .fail (.unknownOpcode 22#16) 1 ∧
      decode [4#16, 0#16, 0#16, 32776#16] = .fail (.invalidOperand 32776#16) 4 := by decide
/-- Two machines that differ in a word behind the four. -/
theorem witness_DecodingReadsOnlyMemoryAtIp :
    (start [9, 1, 2, 3, 5]).ip = (start [9, 1, 2, 3, 4]).ip ∧
      ∀ k, k < 4 → (start [9, 1, 2, 3, 4]).ip.toNat + k < 32768 →
        (start [9, 1, 2, 3, 5]).mem.read ((start [9, 1, 2, 3, 4]).ip.toNat + k) =
          (start [9, 1, 2, 3, 4]).mem.read ((start [9, 1, 2, 3, 4]).ip.toNat + k) := by decide
/-- The last cycle that leaves room. -/
theorem witness_StepRunsDecodedInstruction : let s : State := { start [17, 100] with cycles := 4999998 }
    s.state = .running ∧ s.decoded = .instr (.call (.lit 100#16)) 2 ∧ s.cycles + 1 < s.config.cycleCeiling := by decide
theorem witness_StepRunsEncodedInstruction : let s := atTop [1, 32775, 32767]
    s.state = .running ∧ (Instr.set (.reg 7) (.lit 32767#16)).wf = true ∧
      s.holdsAt s.ip.toNat (encode (.set (.reg 7) (.lit 32767#16))) ∧ s.cycles + 1 < s.config.cycleCeiling :=
  ⟨by decide, by decide, (by apply holdsAt_of; decide), by decide⟩
theorem witness_CeilingStopsPendingInstruction : let s : State := { start [6, 0] with cycles := 4999999 }
    s.state = .running ∧ (Instr.jmp (.lit 0#16)).wf = true ∧ s.holdsAt s.ip.toNat (encode (.jmp (.lit 0#16))) ∧
      s.cycles + 1 = s.config.cycleCeiling :=
  ⟨by decide, by decide, (by apply holdsAt_of; decide), by decide⟩
theorem witness_UnknownOpcodeStops : let s := atTop [22]
    s.state = .running ∧ s.holdsAt s.ip.toNat [22#16] ∧ 21 < (22#16).toNat :=
  ⟨by decide, (by apply holdsAt_of; decide), by decide⟩
/-- An eq whose third operand word is the first invalid one. -/
def thirdInvalid : State := atTop [4, 32775, 0, 32776]
theorem witness_InvalidOperandStops :
    thirdInvalid.state = .running ∧ arity (4#16).toNat = some 3 ∧ [32775#16, 0#16].length < 3 ∧
      (∀ u ∈ [32775#16, 0#16], u.toNat < 32776) ∧ 32776 ≤ (32776#16).toNat ∧
      thirdInvalid.holdsAt thirdInvalid.ip.toNat (4#16 :: ([32775#16, 0#16] ++ [32776#16])) :=
  ⟨by decide, by decide, by decide, by simp, by decide, by apply holdsAt_of; decide⟩
theorem witness_FetchBeyondMemoryStops_opcode : let s : State := { start [] with ip := 32768#16 }
    s.state = .running ∧ 32767 < s.ip.toNat := by decide
/-- A set that lacks its last operand word. -/
def setCutShort : State := atTop [1, 32775]
theorem witness_FetchBeyondMemoryStops_operand :
    setCutShort.state = .running ∧ arity (1#16).toNat = some 2 ∧ [32775#16].length < 2 ∧
      (∀ u ∈ [32775#16], u.toNat < 32776) ∧ setCutShort.holdsAt setCutShort.ip.toNat (1#16 :: [32775#16]) ∧
      setCutShort.ip.toNat + [32775#16].length + 1 = 32768 :=
  ⟨by decide, by decide, by decide, by simp, by apply holdsAt_of; decide, by decide⟩
theorem witness_EveryStepHasOneSuccessor : (start [21]).state = .running := by decide
/-- For the frame, with a register other than the destination and an address other than the stored one. -/
theorem witness_EveryInstructionKeepsItsFrame :
    exec (.writeMemory (.lit 32767#16) (.lit 1#16)) (start [21]) =
        .next ((start [21]).setMem ((start [21]).mem.write 32767 1#16)) ∧
      (Instr.writeMemory (.lit 32767#16) (.lit 1#16)).destination ≠ some (.reg 7) ∧
      (32766#16 : Word) ≠ (start [21]).val (.lit 32767#16) := ⟨rfl, by decide, by decide⟩
theorem witness_UnderflowOnlyFromEmptyPop : (start []).stack = [] ∧
    exec (.pop (.reg 0)) (start []) = .next ((start []).raise .stackUnderflow) ∧
    (start []).state ≠ .errored .stackUnderflow ∧
    ((start []).raise .stackUnderflow).state = .errored .stackUnderflow := ⟨rfl, rfl, by decide, rfl⟩
/-- One instruction for each cause. -/
theorem witness_ExecuteErrorsHaveTheirCause :
    (∀ d, (start []).state ≠ .errored d) ∧
      exec (.set (.lit 0#16) (.lit 1#16)) (start []) = .next ((start []).raise (.writeToImmediate 0#16)) ∧
      exec (.pop (.lit 0#16)) (start []) = .next ((start []).raise .stackUnderflow) ∧
      exec (.modulo (.lit 0#16) (.lit 1#16) (.lit 0#16)) (start []) = .next ((start []).raise .moduloByZero) ∧
      exec (.call (.lit 0#16)) noRoom = .next (noRoom.raise .stackOverflow) ∧
      exec (.readMemory (.lit 0#16) (.reg 0)) (startWith [32768] []) =
        .next ((startWith [32768] []).raise (.addressOutOfRange 32768#16)) :=
  ⟨(fun _ h => nomatch h), rfl, rfl, rfl, rfl, rfl⟩
theorem witness_FailingStepWritesNothing :
    step (start [3, 5]) = .next (after (step (start [3, 5]))) ∧
      (after (step (start [3, 5]))).state = .errored .stackUnderflow := ⟨next_after (by decide), by decide⟩
/-- A store at the last address: a register and another address that it leaves alone. -/
theorem witness_StepChangesAtMostOneOfEach :
    step (start [16, 32767, 1]) = .next (after (step (start [16, 32767, 1]))) ∧
      (∀ i n, (start [16, 32767, 1]).decoded = .instr i n → i.destination ≠ some (.reg 7)) ∧
      ∀ addr src n, (start [16, 32767, 1]).decoded = .instr (.writeMemory addr src) n →
        32766#16 ≠ (start [16, 32767, 1]).val addr := by
  have hd : (start [16, 32767, 1]).decoded = .instr (.writeMemory (.lit 32767#16) (.lit 1#16)) 3 := by decide
  refine ⟨next_after (by decide), fun i n h => ?_, fun addr src n h => ?_⟩
  · rw [hd, DecodeResult.instr.injEq] at h
    rw [← h.1]; decide
  · rw [hd, DecodeResult.instr.injEq, Instr.writeMemory.injEq] at h
    rw [← h.1.1]; decide
/-- A running machine that halts, in both ways, and one that waits. -/
theorem witness_StateTransitionsAreTheListedOnes :
    (start [0]).state = .running ∧ (after (step (start [0]))).state = .halted ∧
      (start [18]).state = .running ∧ (after (step (start [18]))).state = .halted ∧
      (start [20, 3]).state = .running ∧ (after (step (start [20, 3]))).state = .waitingForInput := by decide
theorem witness_RunOnTerminalMachineIsNoOp :
    ((start []).halt).state = .halted ∧ ((start []).raise .cycleCeiling).state = .errored .cycleCeiling := ⟨rfl, rfl⟩
theorem witness_ProgramCannotObserveOutputOrCount :
    exec (.output (.lit 88#16)) (start []) = .next ((start []).outAppend 88#8) := rfl
/-- A store at the last address, and the removal of an entry. -/
theorem witness_StepKeepsMemoryCanonical :
    (start [16, 32767, 1]).mem.wf ∧ step (start [16, 32767, 1]) = .next (after (step (start [16, 32767, 1]))) ∧
      (start [16, 0, 0]).mem.wf ∧ step (start [16, 0, 0]) = .next (after (step (start [16, 0, 0]))) :=
  ⟨by decide, next_after (by decide), by decide, next_after (by decide)⟩
theorem witness_CanonicalMemoriesAreDetermined :
    (start [5, 0, 7]).mem.wf ∧ ∀ a, a < 32768 → (start [5, 0, 7]).mem.read a = (start [5, 0, 7]).mem.read a :=
  ⟨by decide, fun _ _ => rfl⟩
/-- One cycle below the ceiling. -/
def lastCycle : State := { start [2, 9] with cycles := 4, stack := [4#16], config := withCeiling 5 }
theorem witness_StepKeepsCyclesWithinBudget : lastCycle.withinBudget ∧ step lastCycle = .next (after (step lastCycle)) :=
  ⟨⟨by decide, fun _ => by decide⟩, next_after (by decide)⟩
/-- As many entries and characters as cycles. -/
def oneOfEach : State := { start [2, 9] with cycles := 1, stack := [4#16], outbuf := [65#8] }
theorem witness_StackAndOutputStayBoundedByCycles :
    oneOfEach.stack.length ≤ oneOfEach.cycles ∧ oneOfEach.outbuf.length ≤ oneOfEach.cycles ∧
      step oneOfEach = .next (after (step oneOfEach)) := ⟨by decide, by decide, next_after (by decide)⟩
/-- The same at the ceiling, for the last clause. -/
theorem witness_StackAndOutputStayBoundedByCycles_ceiling :
    lastCycle.stack.length ≤ lastCycle.cycles ∧ lastCycle.outbuf.length ≤ lastCycle.cycles ∧
      step lastCycle = .next (after (step lastCycle)) ∧ lastCycle.state = .running ∧
      (after (step lastCycle)).state = .errored .cycleCeiling :=
  ⟨by decide, by decide, next_after (by decide), by decide, by decide⟩
/-- A read-memory of the word 32767, with that word on the stack and in the queue. -/
def largestLoad : State := { start [15, 32768, 3, 32767] with stack := [32767#16], inq := [32767#16] }
theorem witness_FifteenBitValuesStayFifteenBit_read :
    (∀ r, (largestLoad.getReg r).toNat < 32768) ∧ (∀ v ∈ largestLoad.stack, v.toNat < 32768) ∧
      (∀ w ∈ largestLoad.inq, w.toNat < 32768) ∧
      largestLoad.decoded = .instr (.readMemory (.reg 0) (.lit 3#16)) 3 ∧ largestLoad.memRead 3#16 = some 32767#16 :=
  ⟨by decide, by simp [largestLoad], by simp [largestLoad], by decide, by decide⟩
/-- The last call that pushes a value below 32768: at 32765. -/
theorem witness_FifteenBitValuesStayFifteenBit_call :
    (∀ r, ((atTop [17, 2, 0]).getReg r).toNat < 32768) ∧ (∀ v ∈ (atTop [17, 2, 0]).stack, v.toNat < 32768) ∧
      (∀ w ∈ (atTop [17, 2, 0]).inq, w.toNat < 32768) ∧
      (atTop [17, 2, 0]).decoded = .instr (.call (.lit 2#16)) 2 ∧ (atTop [17, 2, 0]).ip.toNat < 32766 :=
  ⟨by decide, fun _ h => absurd h (List.not_mem_nil), fun _ h => absurd h (List.not_mem_nil), by decide, by decide⟩
/-- The words of an encoding other than the `k`-th, by looking at each. -/
theorem others_of {s : State} {ws : List Word} {k : Nat}
    (h : ∀ j : Fin ws.length, j.val ≠ k → s.ip.toNat + j.val < 32768 ∧ s.mem.read (s.ip.toNat + j.val) = ws[j]) :
    ∀ j w, j ≠ k → ws[j]? = some w → s.ip.toNat + j < 32768 ∧ s.mem.read (s.ip.toNat + j) = w := by
  intro j w hjk hj
  obtain ⟨hlt, rfl⟩ := List.getElem?_eq_some_iff.1 hj
  exact h ⟨j, hlt⟩ hjk
/-- P4: the opcode of output is stored over a no-op. -/
def beforeOutput : State := { start [0, 0, 0, 21, 66] with ip := 3#16 }
theorem witness_StoreIsSeenByNextFetch_opcode :
    beforeOutput.state = .running ∧ (beforeOutput.val (.lit 3#16)).toNat ≤ 32767 ∧
      beforeOutput.cycles + 1 < beforeOutput.config.cycleCeiling ∧ (Instr.output (.lit 66#16)).wf = true ∧
      (beforeOutput.val (.lit 3#16)).toNat = beforeOutput.ip.toNat + 0 ∧
      (encode (.output (.lit 66#16)))[0]? = some (beforeOutput.val (.lit 19#16)) ∧
      ∀ j w, j ≠ 0 → (encode (.output (.lit 66#16)))[j]? = some w →
        beforeOutput.ip.toNat + j < 32768 ∧ beforeOutput.mem.read (beforeOutput.ip.toNat + j) = w :=
  ⟨by decide, by decide, by decide, by decide, by decide, by decide, others_of (by decide)⟩
/-- The last operand word, at the last address. -/
def beforeSet : State := atTop [1, 32775, 0]
theorem witness_StoreIsSeenByNextFetch_operand :
    beforeSet.state = .running ∧ (beforeSet.val (.lit 32767#16)).toNat ≤ 32767 ∧
      beforeSet.cycles + 1 < beforeSet.config.cycleCeiling ∧ (Instr.set (.reg 7) (.lit 5#16)).wf = true ∧
      (beforeSet.val (.lit 32767#16)).toNat = beforeSet.ip.toNat + 2 ∧
      (encode (.set (.reg 7) (.lit 5#16)))[2]? = some (beforeSet.val (.lit 5#16)) ∧
      ∀ j w, j ≠ 2 → (encode (.set (.reg 7) (.lit 5#16)))[j]? = some w →
        beforeSet.ip.toNat + j < 32768 ∧ beforeSet.mem.read (beforeSet.ip.toNat + j) = w :=
  ⟨by decide, by decide, by decide, by decide, by decide, by decide, others_of (by decide)⟩
/-- The lowest word that is no opcode, at the last address. -/
theorem witness_StoreIsSeenByNextFetch_unknown : let s : State := { start [] with ip := 32767#16 }
    s.state = .running ∧ (s.val (.lit 32767#16)).toNat ≤ 32767 ∧ s.cycles + 1 < s.config.cycleCeiling ∧
      s.val (.lit 32767#16) = s.ip ∧ 21 < (s.val (.lit 22#16)).toNat := by decide
/-- The lowest invalid operand word, from a register, as the last operand at the last address. -/
def beforeInvalid : State := { atTop [1, 32775, 0] with x := Vector.replicate 8 32776#16 }
theorem witness_StoreIsSeenByNextFetch_invalid :
    beforeInvalid.state = .running ∧ (beforeInvalid.val (.lit 32767#16)).toNat ≤ 32767 ∧
      beforeInvalid.cycles + 1 < beforeInvalid.config.cycleCeiling ∧ arity (1#16).toNat = some 2 ∧
      [32775#16].length < 2 ∧ (∀ v ∈ [32775#16], v.toNat < 32776) ∧
      beforeInvalid.holdsAt beforeInvalid.ip.toNat (1#16 :: [32775#16]) ∧
      (beforeInvalid.val (.lit 32767#16)).toNat = beforeInvalid.ip.toNat + [32775#16].length + 1 ∧
      32776 ≤ (beforeInvalid.val (.reg 0)).toNat :=
  ⟨by decide, by decide, by decide, by decide, by decide, by simp, by apply holdsAt_of; decide, by decide, by decide⟩
theorem witness_MemoryReadsLastWrite :
    (32767#16).toNat ≤ 32767 ∧ (start [5]).mem.wf ∧ 32767 < (32768#16).toNat := by decide
theorem witness_PushesArePoppedInReverse : (start []).config.stackCapacity = none := by decide
theorem witness_ReturnUndoesCall : roomForOne.stackFull = false ∧
    ({ start [] with stack := [2#16] } : State).stack = (roomForOne.push 2#16).stack := by decide
theorem witness_BitwiseLaws : (32767#16).toNat ≤ 32767 ∧ (0#16).toNat ≤ 32767 := by decide
theorem witness_RunStepsUntilNotRunning : State.reset.state = .initialized ∧ ((start []).block).state = .waitingForInput := by
  decide
/-- The largest count that leaves room for the retry. -/
theorem witness_BlockedInputRetriesAfterResume : let s : State := { atTop [20, 32775] with cycles := 4999997 }
    s.state = .running ∧ s.holdsAt s.ip.toNat (encode (.input (.reg 7))) ∧ s.inq = [] ∧
      s.cycles + 2 < s.config.cycleCeiling := ⟨by decide, (by apply holdsAt_of; decide), by decide, by decide⟩
/-- Two machines with different registers, stack, memory and queue. -/
theorem witness_IntrospectionIsReadOnly :
    State.reset.state ≠ .running ∧
      (let t : State := { State.reset with mem := [(0, 5#16)], stack := [7#16], inq := [9#16] }
       t.state = State.reset.state ∧ t.cycles = State.reset.cycles ∧ t.ip = State.reset.ip ∧
        t.outbuf = State.reset.outbuf) := by decide
theorem witness_CallerOperationsByState :
    (start []).state = .running ∧
      perform (.appendInputWord 65535#16) State.reset = some (.nothing, .next (State.reset.setInq [65535#16])) ∧
      CallerOp.appendInputWord 65535#16 ≠ .run ∧ ∀ image, CallerOp.appendInputWord 65535#16 ≠ .reset image :=
  ⟨rfl, rfl, by decide, fun _ h => nomatch h⟩
/-- The largest image, with an odd last byte, and the smallest that is refused. -/
theorem witness_ImageLoadFillsMemory :
    (List.replicate 65537 (7#8 : Byte)).length / 2 ≤ 32768 ∧
      (List.replicate 65537 (7#8 : Byte))[2 * 32767]? = some 7#8 ∧
      (List.replicate 65537 (7#8 : Byte))[2 * 32767 + 1]? = some 7#8 ∧
      32768 < (List.replicate 65538 (7#8 : Byte)).length / 2 := by
  refine ⟨?_, List.getElem?_replicate_of_lt (by decide), List.getElem?_replicate_of_lt (by decide), ?_⟩
  · rw [List.length_replicate]
  · rw [List.length_replicate]; decide

end Sys2Proof.Tests
end

section
/-! PROOFS. The statements about encoding and decoding (spec/30_encoding.md): a step whose decode fails, the unknown
opcode, and the worked encodings of R57. -/

namespace Sys2Proof.Machine

/-- A running machine takes the error of a failed decode, whatever the ceiling (R14, R137). -/
theorem step_of_decoded_fail {s : State} {e : DecodeError} {n : Nat} (hrun : s.state = .running)
    (hd : s.decoded = .fail e n) : step s = .next (s.decodeFailure e n) := by
  rw [step_of_running hrun, cycle, hd]

/-- The word at `ip` alone decides that the opcode is unknown (R52). -/
theorem State.decoded_of_unknown {s : State} {w : Word} (hw : s.holdsAt s.ip.toNat [w]) (h : 21 < w.toNat) :
    s.decoded = .fail (.unknownOpcode w) 1 := by
  rw [State.decoded, State.fetchWindow_of_holdsAt hw (by simp), List.singleton_append, decode_unknown h]

/-- Settles O31: the step is the decode failure that the word at `ip` causes, which touches no data and is not counted. -/
theorem unknownOpcodeStops : Obligations.UnknownOpcodeStops := by
  intro s w hrun hw h
  exact ⟨_, step_of_decoded_fail hrun (State.decoded_of_unknown hw h), rfl, rfl, rfl, s.sameData_decodeFailure _ _⟩

/-- Settles O23: each row's operand words are the encodings of well-formed operands, which the opcode's format reads
back; 22 is above every opcode. -/
theorem documentedWordsDecode : Obligations.DocumentedWordsDecode :=
  ⟨rfl,
    decode1_encoded (a := .lit 3#16) rfl .jmp [],
    decode2_encoded (a := .lit 2#16) (b := .lit 6#16) rfl rfl .jumpIfTrue [],
    decode2_encoded (a := .lit 2#16) (b := .lit 10#16) rfl rfl .jumpIfFalse [],
    decode2_encoded (a := .reg 0) (b := .lit 32767#16) rfl rfl .not [],
    decode2_encoded (a := .lit 6#16) (b := .reg 0) rfl rfl .writeMemory [],
    decode3_encoded (a := .reg 0) (b := .reg 1) (c := .lit 88#16) rfl rfl rfl .add [],
    decode1_encoded (a := .reg 0) rfl .output [],
    decode_unknown (by decide) []⟩

end Sys2Proof.Machine
end

section
/-! PROOFS. The statement about set (spec/40_set_stack.md): the rule for every instruction whose one write is its
destination register, and set as its use. -/

namespace Sys2Proof.Machine

/-- An instruction that ends by writing `v` to its destination (R12, R116): the register form writes that register, the
literal form raises `WriteToImmediate`. -/
theorem writesDestination_of_exec_eq {i : Instr} {dst : Operand} {v : Word} {good : Word → Prop} {s : State}
    (hexec : exec i s = writeDestination dst v s) (hgood : good v) : Claims.writesDestination i dst good s := by
  constructor
  · rintro r rfl
    exact ⟨s.setReg r v, hexec, by rwa [State.getReg_setReg_same], s.onlyRegister_setReg r v⟩
  · rintro l rfl
    exact ⟨s.raise (.writeToImmediate l), hexec, s.raised_raise _⟩

/-- Settles O1: set writes the resolved source to its destination, whole. -/
theorem setMovesWholeWord : Obligations.SetMovesWholeWord :=
  fun _ _ _ => ⟨rfl, writesDestination_of_exec_eq rfl rfl⟩

end Sys2Proof.Machine
end

section
/-! PROOFS. The statement about jmp (spec/42_jumps.md): setting `ip` leaves all data as it was, and jmp does only
that. -/

namespace Sys2Proof.Machine

/-- Setting `ip` leaves all data as it was. -/
theorem State.sameData_setIp (s : State) (a : Word) : State.sameData s (s.setIp a) := by
  simp [State.sameData]

/-- jmp answers with `ip` at the resolved target, whatever that word is (R74, R75). -/
theorem exec_jmp (target : Operand) (s : State) : exec (.jmp target) s = .next (s.setIp (s.val target)) := rfl

/-- Settles O6: the one update of jmp is to `ip`, which touches no data, state or count. -/
theorem jmpSetsInstructionPointer : Obligations.JmpSetsInstructionPointer :=
  fun s target =>
    ⟨rfl, _, exec_jmp target s, s.setIp_ip _, s.setIp_state _, s.setIp_cycles _, s.sameData_setIp _⟩

end Sys2Proof.Machine
end

section
/-! PROOFS. The statements about the caller's operations (spec/49_run_loop_host.md sections 3 and 4): a run on a terminal
machine, and what a reply can depend on. -/

namespace Sys2Proof.Machine

/-! ### Running a terminal machine -/

/-- The terminal states are the two that R120 names. -/
theorem ExecState.terminal_iff (e : ExecState) : e.terminal = true ↔ e = .halted ∨ ∃ c, e = .errored c := by
  cases e <;> simp [ExecState.terminal]

/-- A terminal machine is not running. -/
theorem State.not_running_of_terminal {s : State} (h : s.state.terminal = true) : s.state ≠ .running := by
  intro hrun
  rw [hrun] at h
  cases h

/-- The loop executes nothing on a machine that is not running, whatever fuel is left (R118). -/
theorem runLoop_of_not_running {s : State} (h : s.state ≠ .running) (fuel : Nat) : runLoop fuel s = .next s := by
  cases fuel with
  | zero => rfl
  | succ n => rw [runLoop, if_neg h]

/-- A run of a terminal machine is the guarded no-op of R120: it enters nothing, and the loop finds nothing to do. -/
theorem run_of_terminal {s : State} (h : s.state.terminal = true) : run s = .next s := by
  rw [run, s.enterRun_of_terminal h, runLoop_of_not_running (s.not_running_of_terminal h)]

/-! ### Replies -/

/-- While the machine runs, no operation of the caller can occur (R128). -/
theorem perform_of_running {s : State} (h : s.state = .running) (op : CallerOp) : perform op s = none := by
  simp [perform, h]

/-- The caller's run operation is `run()`, with nothing returned. -/
theorem perform_run {s : State} (h : s.state ≠ .running) : perform .run s = some (.nothing, run s) := by
  rw [perform, if_neg h]

/-- Introspection of the state (R126). -/
theorem perform_state {s : State} (h : s.state ≠ .running) : perform .state s = some (.state s.state, .next s) := by
  rw [perform, if_neg h]

/-- Introspection of the cycle count (R126). -/
theorem perform_cycleCount {s : State} (h : s.state ≠ .running) :
    perform .cycleCount s = some (.cycleCount s.cycles, .next s) := by
  rw [perform, if_neg h]

/-- Introspection of the instruction pointer (R126). -/
theorem perform_instructionPointer {s : State} (h : s.state ≠ .running) :
    perform .instructionPointer s = some (.instructionPointer s.ip, .next s) := by
  rw [perform, if_neg h]

/-- What an operation returns, from all that the interface exposes: `state`, `cycles`, `ip` and the output buffer. A
reset returns no more than whether its own image fits (R161). -/
def CallerOp.reply (e : ExecState) (cycles : Nat) (ip : Word) (outbuf : List Byte) : CallerOp → Reply
  | .run => .nothing
  | .appendInputWord _ => .nothing
  | .drainOutput => .output outbuf
  | .state => .state e
  | .cycleCount => .cycleCount cycles
  | .instructionPointer => .instructionPointer ip
  | .reset image => if (imageWords image).length ≤ memWords then .nothing else .refusedImage

/-- The reply to a reset is decided by the image's size alone. -/
theorem perform_reset_reply {s : State} (h : s.state ≠ .running) (image : List Byte) :
    (perform (.reset image) s).map Prod.fst =
      some (if (imageWords image).length ≤ memWords then .nothing else .refusedImage) := by
  rw [perform, if_neg h]
  by_cases hfit : (imageWords image).length ≤ memWords
  · simp [State.resetFrom, State.resetFromWords, hfit]
  · simp [State.resetFrom, State.resetFromWords, hfit]

/-- Of a machine that is not running, every reply is `CallerOp.reply` of the exposed fields. -/
theorem perform_reply {s : State} (h : s.state ≠ .running) (op : CallerOp) :
    (perform op s).map Prod.fst = some (op.reply s.state s.cycles s.ip s.outbuf) := by
  cases op with
  | run => rw [perform_run h]; rfl
  | appendInputWord w => rw [perform, if_neg h]; rfl
  | drainOutput => rw [perform, if_neg h]; rfl
  | state => rw [perform_state h]; rfl
  | cycleCount => rw [perform_cycleCount h]; rfl
  | instructionPointer => rw [perform_instructionPointer h]; rfl
  | reset image => exact perform_reset_reply h image

/-- Machines that agree in the exposed fields answer every operation with the same reply (R126). -/
theorem perform_reply_congr {s t : State} (hstate : t.state = s.state) (hcycles : t.cycles = s.cycles)
    (hip : t.ip = s.ip) (hout : t.outbuf = s.outbuf) (op : CallerOp) :
    (perform op t).map Prod.fst = (perform op s).map Prod.fst := by
  by_cases hrun : s.state = .running
  · rw [perform_of_running hrun, perform_of_running (hstate.trans hrun)]
  · have hrun' : t.state ≠ .running := hstate ▸ hrun
    rw [perform_reply hrun, perform_reply hrun', hstate, hcycles, hip, hout]

/-- Settles O41: the run of a terminal machine is the no-op, and the caller's operation is that run. -/
theorem runOnTerminalMachineIsNoOp : Obligations.RunOnTerminalMachineIsNoOp := by
  intro s h
  have hterm : s.state.terminal = true := s.state.terminal_iff.mpr h
  have hrun : run s = .next s := run_of_terminal hterm
  exact ⟨hrun, by rw [perform_run (s.not_running_of_terminal hterm), hrun]⟩

/-- Settles O58: the three introspection operations answer their field and the machine itself, and every reply is a
function of the exposed fields. -/
theorem introspectionIsReadOnly : Obligations.IntrospectionIsReadOnly :=
  ⟨fun _ h => ⟨perform_state h, perform_cycleCount h, perform_instructionPointer h⟩,
    fun op _ _ hstate hcycles hip hout => perform_reply_congr hstate hcycles hip hout op⟩

end Sys2Proof.Machine
end

section
/-! PROOFS. The statement about `StackUnderflow` (spec/60_exceptions.md R142): the two instructions that pop, on an empty
stack, and that an error found after an instruction was raised by that instruction. -/

namespace Sys2Proof.Machine

/-! ### Popping an empty stack -/

/-- There is nothing to pop from an empty stack. -/
theorem State.pop_of_empty {s : State} (h : s.stack = []) : s.pop = none := by
  rw [State.pop, h]

/-- pop on an empty stack raises its cause before it looks at its destination (R142, decision D12). -/
theorem exec_pop_of_empty {s : State} (h : s.stack = []) (dst : Operand) :
    exec (.pop dst) s = .next (s.raise .stackUnderflow) := by
  rw [exec, execPop, State.pop_of_empty h]

/-- return on an empty stack is normal completion (R100). -/
theorem exec_ret_of_empty {s : State} (h : s.stack = []) : exec .ret s = .next s.halt := by
  rw [exec, execReturn, State.pop_of_empty h]

/-! ### Where an error comes from -/

/-- An error that is new after an instruction was raised by it: every other effect keeps `state`, or sets it to `Halted`
or `WaitingForInput`. -/
theorem Effect.raises_of_errored {i : Instr} {s t : State} {c : Cause} (he : Effect i s t)
    (hnew : s.state ≠ .errored c) (ht : t.state = .errored c) : Raises i s c := by
  cases he with
  | raised h => exact ExecState.errored.inj ht ▸ h
  | halt | retHalt _ | block _ => exact nomatch ht
  | register _ _ | push _ | pop _ | jmp | jumpIfTrue | jumpIfFalse | store _ | call _ | ret _ | output | input _ | noop =>
    exact absurd ht hnew

/-- Of the causes, `StackUnderflow` belongs to pop on an empty stack alone (R142). -/
theorem Raises.underflow_iff {i : Instr} {s : State} :
    Raises i s .stackUnderflow ↔ s.stack = [] ∧ ∃ dst, i = .pop dst := by
  constructor
  · intro h
    cases h with
    | underflow h => exact ⟨h, _, rfl⟩
  · rintro ⟨h, dst, rfl⟩
    exact .underflow h

/-- Settles O36: pop and return on an empty stack are evaluated, and an underflow that is new after an instruction was
raised by it. -/
theorem underflowOnlyFromEmptyPop : Obligations.UnderflowOnlyFromEmptyPop :=
  ⟨fun s dst h => ⟨_, exec_pop_of_empty h dst, s.raised_raise _⟩,
    fun _ _ _ hexec hnew ht => Raises.underflow_iff.mp ((exec_eq_next hexec).raises_of_errored hnew ht),
    fun s h => ⟨_, exec_ret_of_empty h, s.halt_state⟩⟩

end Sys2Proof.Machine
end

section
/-! PROOFS. The statement about reset and hazards (spec/70_reset_and_hazards.md R175): a step of the core faults and
refuses in no case, so it has a successor, and every register is written at reset. -/

namespace Sys2Proof.Machine

/-- A step of the core answers a next state: a failed decode and a reached ceiling raise their error in one, and every
instruction has its effect. -/
theorem cycle_exists_next (s : State) : ∃ t, cycle s = .next t := by
  obtain ⟨e, n, -, hcycle⟩ | ⟨i, n, -, -, hcycle⟩ | ⟨i, n, -, -, hcycle⟩ := cycle_cases s
  · exact ⟨s.decodeFailure e n, hcycle⟩
  · exact ⟨(s.prepared n).raise .cycleCeiling, hcycle⟩
  · obtain ⟨t, hexec, -⟩ := exec_effect i (s.prepared n)
    exact ⟨t, hcycle.trans hexec⟩

/-- A step answers a next state, running or not; a machine that is not running answers what entering a run makes of it
(R118, R120). -/
theorem step_exists_next (s : State) : ∃ t, step s = .next t := by
  by_cases hrun : s.state = .running
  · rw [step_of_running hrun]
    exact cycle_exists_next s
  · exact ⟨s.enterRun, step_of_not_running hrun⟩

/-- A step's successor is unique. -/
theorem step_next_unique {s t u : State} (ht : step s = .next t) (hu : step s = .next u) : u = t :=
  Host.Outcome.next.inj (hu.symm.trans ht)

/-- At reset every register holds 0 (R26). -/
theorem State.getReg_reset (r : Fin 8) : State.reset.getReg r = 0#16 := by
  simp [State.reset, State.getReg]

/-- Settles O34: a successor exists because no case of a step faults or refuses, and is unique because a step is a
function. -/
theorem everyStepHasOneSuccessor : Obligations.EveryStepHasOneSuccessor := by
  refine ⟨fun s _ => ?_, State.getReg_reset⟩
  obtain ⟨t, ht⟩ := step_exists_next s
  exact ⟨t, ht, fun _ hu => step_next_unique ht hu⟩

end Sys2Proof.Machine
end

section
/-! PROOFS. The statements about the encoding (spec/30_encoding.md section 7): decoding and encoding are inverse, the
operand word's classes, and how far the decoder reads. -/

namespace Sys2Proof

open Machine

/-! ### Decode after encode -/

theorem Instr.wf_iff {i : Instr} : i.wf = true ↔ ∀ op ∈ i.operands, op.wf = true :=
  List.all_eq_true

/-- The decoder gives a well-formed instruction back from its encoding, whatever words follow (R64). -/
theorem decode_encode {i : Instr} (hwf : i.wf = true) (rest : List Word) :
    decode (encode i ++ rest) = .instr i (encode i).length := by
  have hops := Instr.wf_iff.mp hwf
  cases i with
  | halt | ret | noop => rfl
  | push a | pop a | jmp a | call a | output a | input a =>
    exact decode1_encoded (hops a (by simp [Instr.operands])) _ rest
  | set a b | jumpIfTrue a b | jumpIfFalse a b | not a b | readMemory a b | writeMemory a b =>
    exact decode2_encoded (hops a (by simp [Instr.operands])) (hops b (by simp [Instr.operands])) _ rest
  | eq a b c | gt a b c | add a b c | multiply a b c | modulo a b c | and a b c | or a b c =>
    exact decode3_encoded (hops a (by simp [Instr.operands])) (hops b (by simp [Instr.operands]))
      (hops c (by simp [Instr.operands])) _ rest

/-! ### Encode after decode -/

/-- The words `ws` start with the encoding of the well-formed instruction `i`, which has `n` words. -/
def StartsWithEncoding (ws : List Word) (i : Instr) (n : Nat) : Prop :=
  i.wf = true ∧ ws.take n = encode i ∧ n = (encode i).length

/-- Words that are an encoding and more words start with that encoding. -/
theorem startsWithEncoding_append {ws rest : List Word} {i : Instr} {n : Nat} (hwf : ∀ op ∈ i.operands, op.wf = true)
    (hws : ws = encode i ++ rest) (hn : n = (encode i).length) : StartsWithEncoding ws i n := by
  subst hws hn
  exact ⟨Instr.wf_iff.mpr hwf, List.take_left, rfl⟩

theorem decode0_startsWithEncoding {w : Word} {words : List Word} {i j : Instr} {n : Nat}
    (h : DecodeResult.instr j 1 = .instr i n) (hj : j.operands = []) (hop : j.opcode = w) :
    StartsWithEncoding (w :: words) i n := by
  obtain ⟨rfl, rfl⟩ := DecodeResult.instr.inj h
  exact startsWithEncoding_append (rest := words) (by simp [hj]) (by simp [encode, hj, hop]) (by simp [hj])

theorem decode1_startsWithEncoding {mk : Operand → Instr} {w : Word} {words : List Word} {i : Instr} {n : Nat}
    (h : decode1 mk words = .instr i n) (hmk : ∀ a, (mk a).operands = [a]) (hop : ∀ a, (mk a).opcode = w) :
    StartsWithEncoding (w :: words) i n := by
  obtain ⟨a, rest, rfl, ha, rfl, rfl⟩ := decode1_eq_instr h
  exact startsWithEncoding_append (rest := rest) (by simp [hmk, ha]) (by simp [encode, hmk, hop]) (by simp [hmk])

theorem decode2_startsWithEncoding {mk : Operand → Operand → Instr} {w : Word} {words : List Word} {i : Instr} {n : Nat}
    (h : decode2 mk words = .instr i n) (hmk : ∀ a b, (mk a b).operands = [a, b]) (hop : ∀ a b, (mk a b).opcode = w) :
    StartsWithEncoding (w :: words) i n := by
  obtain ⟨a, b, rest, rfl, ha, hb, rfl, rfl⟩ := decode2_eq_instr h
  exact startsWithEncoding_append (rest := rest) (by simp [hmk, ha, hb]) (by simp [encode, hmk, hop]) (by simp [hmk])

theorem decode3_startsWithEncoding {mk : Operand → Operand → Operand → Instr} {w : Word} {words : List Word} {i : Instr}
    {n : Nat} (h : decode3 mk words = .instr i n) (hmk : ∀ a b c, (mk a b c).operands = [a, b, c])
    (hop : ∀ a b c, (mk a b c).opcode = w) : StartsWithEncoding (w :: words) i n := by
  obtain ⟨a, b, c, rest, rfl, ha, hb, hc, rfl, rfl⟩ := decode3_eq_instr h
  exact startsWithEncoding_append (rest := rest) (by simp [hmk, ha, hb, hc]) (by simp [encode, hmk, hop])
    (by simp [hmk])

/-- A decoded instruction is well formed, and the words the decoder used are its encoding: the opcode map of R50 gives
each opcode number the constructor that has this number. -/
theorem decode_startsWithEncoding {ws : List Word} {i : Instr} {n : Nat} (h : decode ws = .instr i n) :
    StartsWithEncoding ws i n := by
  cases ws with
  | nil => simp [decode] at h
  | cons w words =>
    simp only [decode] at h
    generalize hk : w.toNat = k at h
    have hw : BitVec.ofNat 16 k = w := by simp [← hk]
    unfold decodeByOpcode at h
    split at h
    case h_1 | h_19 | h_22 => exact decode0_startsWithEncoding h rfl hw
    case h_3 | h_4 | h_7 | h_18 | h_20 | h_21 => exact decode1_startsWithEncoding h (fun _ => rfl) (fun _ => hw)
    case h_2 | h_8 | h_9 | h_15 | h_16 | h_17 =>
      exact decode2_startsWithEncoding h (fun _ _ => rfl) (fun _ _ => hw)
    case h_5 | h_6 | h_10 | h_11 | h_12 | h_13 | h_14 =>
      exact decode3_startsWithEncoding h (fun _ _ _ => rfl) (fun _ _ _ => hw)
    case h_23 => cases h

/-- Settles O25: `decode_encode` is the one direction, `decode_startsWithEncoding` the other. -/
theorem decodeAndEncodeAreInverse : Obligations.DecodeAndEncodeAreInverse :=
  ⟨fun _ rest hwf => decode_encode hwf rest, fun _ _ _ h => decode_startsWithEncoding h⟩

/-! ### The classes of operand words -/

/-- Settles O24: each range is one case of `classify_cases`, and its bits are arithmetic on the word. -/
theorem operandWordClasses : Obligations.OperandWordClasses := by
  intro v
  rcases classify_cases v with ⟨hlit, hv⟩ | ⟨q, hreg, hv⟩ | ⟨hbad, hv⟩
  · refine ⟨fun _ => ⟨hv, ?_⟩, fun r hr => by omega, fun h => by omega⟩
    exact Nat.testBit_lt_two_pow hlit
  · refine ⟨fun h => by omega, fun r hr => ?_, fun h => by omega⟩
    have hrq : q = r := Fin.ext (by omega)
    subst hrq
    refine ⟨hv, BitVec.eq_of_toNat_eq ?_, ?_⟩
    · simp only [BitVec.extractLsb'_toNat, Nat.shiftRight_eq_div_pow, BitVec.toNat_ofNat]; omega
    · simp only [BitVec.extractLsb'_toNat, Nat.shiftRight_eq_div_pow]; omega
  · exact ⟨fun h => by omega, fun r hr => by omega, fun _ => hv⟩

/-! ### How far the decoder reads -/

/-- `read` takes `m` operand words and then answers an instruction; the first of them is the decoder's `k`-th. -/
def OperandReader : Nat → Nat → (List Word → DecodeResult) → Prop
  | 0, k, read => ∃ i, ∀ words, read words = .instr i k
  | m + 1, k, read => ∃ next, (∀ words, read words = withOperand k words next) ∧ ∀ op, OperandReader m (k + 1) (next op)

/-- After an opcode word of arity `m` the decoder reads `m` operand words. -/
theorem operandReader_decode {w : Word} {m : Nat} (h : arity w.toNat = some m) :
    OperandReader m 1 fun words => decode (w :: words) := by
  rcases decode_of_arity h with ⟨rfl, i, e⟩ | ⟨rfl, mk, e⟩ | ⟨rfl, mk, e⟩ | ⟨rfl, mk, e⟩
  · exact ⟨i, e⟩
  · exact ⟨_, e, fun a => ⟨mk a, fun _ => rfl⟩⟩
  · exact ⟨_, e, fun a => ⟨_, fun _ => rfl, fun b => ⟨mk a b, fun _ => rfl⟩⟩⟩
  · exact ⟨_, e, fun a => ⟨_, fun _ => rfl, fun b => ⟨_, fun _ => rfl, fun c => ⟨mk a b c, fun _ => rfl⟩⟩⟩⟩

/-- Where reading operand words ends without an instruction: with which error, and after how many more words. -/
inductive StopsAt : List Word → DecodeError → Nat → Prop where
  | noWord : StopsAt [] .noWord 0
  | invalid {v : Word} {rest : List Word} (h : 32776 ≤ v.toNat) : StopsAt (v :: rest) (.invalidOperand v) 1

/-- Fewer operand words than are asked for, all valid, lead the decoder to where it stops (R46, R53). -/
theorem OperandReader.fail_of_stopsAt {m k d : Nat} {read : List Word → DecodeResult} {before tail : List Word}
    {e : DecodeError} (hread : OperandReader m k read) (hlen : before.length < m)
    (hvalid : ∀ u ∈ before, u.toNat < 32776) (hstop : StopsAt tail e d) : read (before ++ tail) = .fail e (k + before.length + d) := by
  induction before generalizing m k read with
  | nil =>
    obtain ⟨m, rfl⟩ := Nat.exists_eq_succ_of_ne_zero (Nat.ne_of_gt hlen)
    obtain ⟨next, hnext, -⟩ := hread
    cases hstop with
    | noWord => simp [hnext, withOperand]
    | invalid h => simp [hnext, withOperand, classify_eq_none.mpr h]
  | cons u before ih =>
    obtain ⟨m, rfl⟩ := Nat.exists_eq_succ_of_ne_zero (Nat.ne_of_gt (Nat.zero_lt_of_lt hlen))
    obtain ⟨next, hnext, hreader⟩ := hread
    obtain ⟨op, hop⟩ := classify_isSome.mpr (hvalid u (by simp))
    have htail := ih (hreader op) (by simpa using hlen) fun v hv => hvalid v (by simp [hv])
    simp only [List.cons_append, hnext, withOperand, hop, htail, List.length_cons]
    congr 1
    omega

/-- Where reading operand words failed, valid ones stood before the place where the decoder stopped. -/
theorem OperandReader.stopsAt_of_fail {m k n : Nat} {read : List Word → DecodeResult} {words : List Word}
    {e : DecodeError} (hread : OperandReader m k read) (h : read words = .fail e n) :
    ∃ before tail d, words = before ++ tail ∧ before.length < m ∧ (∀ u ∈ before, u.toNat < 32776) ∧
      StopsAt tail e d ∧ n = k + before.length + d := by
  induction m generalizing k read words with
  | zero =>
    obtain ⟨i, hi⟩ := hread
    rw [hi] at h
    cases h
  | succ m ih =>
    obtain ⟨next, hnext, hreader⟩ := hread
    rw [hnext] at h
    rcases withOperand_cases k words next with ⟨rfl, hw⟩ | ⟨v, rest, rfl, hv, hw⟩ | ⟨v, rest, op, rfl, hv, hw⟩ <;>
      rw [hw] at h
    · obtain ⟨rfl, rfl⟩ := DecodeResult.fail.inj h
      exact ⟨[], [], 0, rfl, by simp, by simp, .noWord, rfl⟩
    · obtain ⟨rfl, rfl⟩ := DecodeResult.fail.inj h
      exact ⟨[], v :: rest, 1, rfl, by simp, by simp, .invalid (classify_eq_none.mp hv), rfl⟩
    · obtain ⟨before, tail, d, rfl, hlen, hvalid, hstop, rfl⟩ := ih (hreader op) h
      refine ⟨v :: before, tail, d, rfl, by simpa using hlen, ?_, hstop, by simp only [List.length_cons]; omega⟩
      exact List.forall_mem_cons.mpr ⟨classify_isSome.mp ⟨op, hv⟩, hvalid⟩

/-- The decoder stops at the first word that is missing or invalid, `before` being the valid operand words before it. -/
theorem decode_of_stopsAt {w : Word} {m d : Nat} {before tail : List Word} {e : DecodeError}
    (hw : arity w.toNat = some m) (hlen : before.length < m) (hvalid : ∀ u ∈ before, u.toNat < 32776)
    (hstop : StopsAt tail e d) : decode (w :: (before ++ tail)) = .fail e (1 + before.length + d) :=
  (operandReader_decode hw).fail_of_stopsAt hlen hvalid hstop

theorem arity_le_three {k m : Nat} (h : arity k = some m) : m ≤ 3 := by
  unfold arity at h
  split at h <;> simp only [Option.some.injEq, reduceCtorEq] at h <;> omega

/-- A decode that failed on an opcode word of the map failed at an operand word. -/
theorem stopsAt_of_decode_fail {w : Word} {m n : Nat} {words : List Word} {e : DecodeError}
    (hw : arity w.toNat = some m) (h : decode (w :: words) = .fail e n) :
    ∃ before tail d, words = before ++ tail ∧ before.length < m ∧ (∀ u ∈ before, u.toNat < 32776) ∧
      StopsAt tail e d ∧ n = 1 + before.length + d :=
  (operandReader_decode hw).stopsAt_of_fail h

/-- An instruction has at most four words (R45). -/
theorem encode_length_le_four (i : Instr) : (encode i).length ≤ 4 := by
  cases i <;> simp [Instr.operands]

/-- An unknown opcode is found in the first word, and the words after it are not read. -/
theorem decode_unknown_reads_one {ws : List Word} {w : Word} {n : Nat} (h : decode ws = .fail (.unknownOpcode w) n)
    (rest : List Word) : n = 1 ∧ decode (ws.take n ++ rest) = .fail (.unknownOpcode w) n := by
  cases ws with
  | nil => simp [decode] at h
  | cons u words =>
    cases hu : arity u.toNat with
    | none =>
      have hunknown := arity_eq_none.mp hu
      rw [decode_unknown hunknown] at h
      obtain ⟨hw, rfl⟩ := DecodeResult.fail.inj h
      cases hw
      exact ⟨rfl, decode_unknown hunknown rest⟩
    | some m =>
      obtain ⟨_, _, _, _, _, _, hstop, _⟩ := stopsAt_of_decode_fail hu h
      cases hstop

/-- An invalid operand word is the last word the decoder reads. -/
theorem decode_invalid_reads_to_operand {ws : List Word} {v : Word} {n : Nat}
    (h : decode ws = .fail (.invalidOperand v) n) (rest : List Word) :
    n ≤ 4 ∧ decode (ws.take n ++ rest) = .fail (.invalidOperand v) n := by
  cases ws with
  | nil => simp [decode] at h
  | cons w words =>
    cases hw : arity w.toNat with
    | none => simp [decode_unknown (arity_eq_none.mp hw)] at h
    | some m =>
      obtain ⟨before, tail, d, rfl, hlen, hvalid, hstop, rfl⟩ := stopsAt_of_decode_fail hw h
      cases hstop with
      | @invalid _ more hv =>
        have hm := arity_le_three hw
        have htake : (w :: (before ++ v :: more)).take (1 + before.length + 1) ++ rest =
            w :: (before ++ v :: rest) := by
          rw [Nat.add_comm 1 before.length, List.take_succ_cons, List.take_length_add_append]
          simp
        exact ⟨by omega, htake ▸ decode_of_stopsAt hw hlen hvalid (.invalid hv)⟩

/-- Settles O26: a decoded instruction's words are its encoding, of at most four words, which decodes whatever follows;
the failures stop at the word they name. -/
theorem decoderReadsNoFurther : Obligations.DecoderReadsNoFurther := by
  refine fun ws rest => ⟨fun i n h => ?_, fun w n h => decode_unknown_reads_one h rest,
    fun v n h => decode_invalid_reads_to_operand h rest⟩
  obtain ⟨hwf, htake, hn⟩ := decode_startsWithEncoding h
  exact ⟨hn ▸ encode_length_le_four i, by rw [htake, decode_encode hwf, hn]⟩

end Sys2Proof
end

section
/-! PROOFS. The statements about the decode and govern phases of a step (spec/49_run_loop_host.md section 2): what decoding
reads, the instruction that a step executes, the ceiling, and the two ways an operand word can be missing or invalid. -/

namespace Sys2Proof.Machine

/-! ### From the decoder's answer to the step -/

/-- A decoded instruction with a cycle left is executed (R114, R116). -/
theorem step_of_decoded_instr {s : State} {i : Instr} {n : Nat} (hrun : s.state = .running)
    (hd : s.decoded = .instr i n) (hcycle : s.cycles + 1 < s.config.cycleCeiling) : step s = exec i (s.prepared n) := by
  have hbelow : ¬ s.config.cycleCeiling ≤ s.cycles + 1 := Nat.not_le.mpr hcycle
  simp [step_of_running hrun, cycle, hd, State.ceilingReached, hbelow]

/-- A decoded instruction whose count reaches the ceiling is not executed (R115, decision D6). -/
theorem step_of_ceiling {s : State} {i : Instr} {n : Nat} (hrun : s.state = .running) (hd : s.decoded = .instr i n)
    (hcycle : s.config.cycleCeiling ≤ s.cycles + 1) : step s = .next ((s.prepared n).raise .cycleCeiling) := by
  simp [step_of_running hrun, cycle, hd, State.ceilingReached, hcycle]

/-- The decoder's advance does not wrap below 65536. -/
theorem State.advance_ip_toNat {s : State} {n : Nat} (h : s.ip.toNat + n < 65536) :
    (s.advance n).ip.toNat = s.ip.toNat + n := by
  simp only [State.advance_ip, BitVec.toNat_add, BitVec.toNat_ofNat]
  omega

/-! ### From the words in memory to the decoder's answer -/

/-- The words of a well-formed instruction at `ip` decode to it. -/
theorem State.decoded_of_holdsAt {s : State} {i : Instr} (hwf : i.wf = true) (h : s.holdsAt s.ip.toNat (encode i)) :
    s.decoded = .instr i (encode i).length := by
  rw [State.decoded, State.fetchWindow_of_holdsAt h (encode_length_le_four i), decode_encode hwf]

/-- Every word of a list that stands in memory has an address below 32768. -/
theorem State.holdsAt_end_lt {s : State} {a : Nat} {ws : List Word} {w : Word} (h : s.holdsAt a (ws ++ [w])) :
    a + ws.length < 32768 :=
  (h ws.length w (by simp)).1

/-- An opcode word, fewer valid operand words than its arity, and an invalid one: the decode fails there (R53). -/
theorem State.decoded_of_invalid {s : State} {w v : Word} {m : Nat} {before : List Word} (hw : arity w.toNat = some m)
    (hlen : before.length < m) (hvalid : ∀ u ∈ before, u.toNat < 32776) (hv : 32776 ≤ v.toNat)
    (h : s.holdsAt s.ip.toNat (w :: (before ++ [v]))) :
    s.decoded = .fail (.invalidOperand v) (before.length + 2) := by
  have hfour : (w :: (before ++ [v])).length ≤ 4 := by
    have := arity_le_three hw
    simp only [List.length_cons, List.length_append, List.length_nil]
    omega
  rw [State.decoded, State.fetchWindow_of_holdsAt h hfour, List.cons_append, List.append_assoc, List.singleton_append,
    decode_of_stopsAt hw hlen hvalid (.invalid hv)]
  congr 1
  omega

/-- An opcode word and fewer valid operand words than its arity at the end of memory: the next fetch finds no word (R140
(b)). -/
theorem State.decoded_of_cut_short {s : State} {w : Word} {m : Nat} {there : List Word} (hw : arity w.toNat = some m)
    (hlen : there.length < m) (hvalid : ∀ u ∈ there, u.toNat < 32776) (h : s.holdsAt s.ip.toNat (w :: there))
    (hend : s.ip.toNat + there.length + 1 = 32768) : s.decoded = .fail .noWord (there.length + 1) := by
  have hfour : (w :: there).length ≤ 4 := by
    have := arity_le_three hw
    simp only [List.length_cons]
    omega
  have hbeyond : s.mem.window (4 - (w :: there).length) (s.ip.toNat + (w :: there).length) = [] :=
    Memory.window_beyond _ _ (Nat.le_of_eq hend.symm)
  rw [State.decoded, State.fetchWindow_of_holdsAt h hfour, hbeyond, List.cons_append,
    decode_of_stopsAt hw hlen hvalid .noWord]
  congr 1
  omega

/-- From address 32768 on there is no opcode word (R140 (a)). -/
theorem State.decoded_beyond {s : State} (h : 32767 < s.ip.toNat) : s.decoded = .fail .noWord 0 := by
  rw [State.decoded, State.fetchWindow, Memory.window_beyond _ _ h, decode]

/-- Settles O27: the window that is decoded has the words at `ip` to `ip + 3`. -/
theorem decodingReadsOnlyMemoryAtIp : Obligations.DecodingReadsOnlyMemoryAtIp := by
  intro s t hip hmem
  rw [State.decoded, State.decoded, State.fetchWindow, State.fetchWindow, hip, Memory.window_congr 4 _ hmem]

/-- Settles O28: the state that the statement writes out is the prepared one. -/
theorem stepRunsDecodedInstruction : Obligations.StepRunsDecodedInstruction :=
  fun _ _ _ hrun hd hcycle => step_of_decoded_instr hrun hd hcycle

/-- Settles O29: the words decode to the instruction, which the step executes. -/
theorem stepRunsEncodedInstruction : Obligations.StepRunsEncodedInstruction :=
  fun _ _ hrun hwf hwords hcycle => step_of_decoded_instr hrun (State.decoded_of_holdsAt hwf hwords) hcycle

/-- The governor's stop leaves all data as it was. -/
theorem State.sameData_prepared_raise (s : State) (n : Nat) (c : Cause) :
    State.sameData s ((s.prepared n).raise c) := by
  simp [State.sameData]

/-- Settles O30: the words decode to the instruction, whose count reaches the ceiling. -/
theorem ceilingStopsPendingInstruction : Obligations.CeilingStopsPendingInstruction := by
  intro s i hrun hwf hwords hcycle
  have hstep := step_of_ceiling hrun (State.decoded_of_holdsAt hwf hwords) (Nat.le_of_eq hcycle.symm)
  exact ⟨_, hstep, rfl, hcycle, rfl, s.sameData_prepared_raise _ _⟩

/-- Settles O32: the decode fails at the invalid operand word; this word is below 32768, so that `ip` does not wrap. -/
theorem invalidOperandStops : Obligations.InvalidOperandStops := by
  intro s w v n before hrun hw hlen hvalid hv hwords
  have hend : s.ip.toNat + (before.length + 1) < 32768 := State.holdsAt_end_lt (ws := w :: before) hwords
  exact ⟨_, step_of_decoded_fail hrun (State.decoded_of_invalid hw hlen hvalid hv hwords), rfl,
    State.advance_ip_toNat (by omega), rfl, s.sameData_decodeFailure _ _⟩

/-- Settles O33: in both clauses the decode fails for want of a word, with `ip` at the address of the missing one. -/
theorem fetchBeyondMemoryStops : Obligations.FetchBeyondMemoryStops := by
  constructor
  · intro s hrun hip
    refine ⟨_, step_of_decoded_fail hrun (State.decoded_beyond hip), ?_⟩
    simp [State.raised, causeOf, s.sameData_decodeFailure]
  · intro s w n there hrun hw hlen hvalid hwords hend
    have hip : s.ip + BitVec.ofNat 16 (there.length + 1) = 32768#16 :=
      BitVec.eq_of_toNat_eq ((State.advance_ip_toNat (by omega)).trans hend)
    refine ⟨_, step_of_decoded_fail hrun (State.decoded_of_cut_short hw hlen hvalid hwords hend), ?_, hip, rfl,
      s.sameData_decodeFailure _ _⟩
    rw [State.decodeFailure_state, hip, causeOf]

end Sys2Proof.Machine
end

section
/-! PROOFS. The laws of the ALU (spec/43_arithmetic.md, spec/44_bitwise.md): arithmetic is that of the numbers modulo
32768, and on words below 32768 not is the complement of bits 14 to 0. -/

namespace Sys2Proof.Machine

/-! ### Arithmetic modulo 32768 -/

@[simp] theorem reduce_toNat (n : Nat) : (reduce n).toNat = n % 32768 := by
  simp only [reduce, valueMod, BitVec.toNat_ofNat]
  omega

/-- A reduced word is below 32768. -/
theorem reduce_toNat_lt (n : Nat) : (reduce n).toNat < 32768 := by
  rw [reduce_toNat]
  exact Nat.mod_lt n (by decide)

/-- Reduction identifies the numbers that are congruent modulo 32768. -/
theorem reduce_eq_of_modEq {m n : Nat} (h : m ≡ n [MOD 32768]) : reduce m = reduce n :=
  BitVec.eq_of_toNat_eq (by rw [reduce_toNat, reduce_toNat]; exact h)

/-- A reduced word is congruent to what was reduced. -/
theorem reduce_modEq (n : Nat) : (reduce n).toNat ≡ n [MOD 32768] :=
  (reduce_toNat n).symm ▸ Nat.mod_modEq n 32768

theorem aluAdd_comm (p q : Word) : aluAdd p q = aluAdd q p := by
  rw [aluAdd, aluAdd, Nat.add_comm]

theorem aluMultiply_comm (p q : Word) : aluMultiply p q = aluMultiply q p := by
  rw [aluMultiply, aluMultiply, Nat.mul_comm]

theorem aluAdd_assoc (p q r : Word) : aluAdd (aluAdd p q) r = aluAdd p (aluAdd q r) := by
  refine reduce_eq_of_modEq ?_
  calc (reduce (p.toNat + q.toNat)).toNat + r.toNat
    _ ≡ p.toNat + q.toNat + r.toNat [MOD 32768] := (reduce_modEq _).add_right _
    _ = p.toNat + (q.toNat + r.toNat) := Nat.add_assoc _ _ _
    _ ≡ p.toNat + (reduce (q.toNat + r.toNat)).toNat [MOD 32768] := (reduce_modEq _).symm.add_left _

theorem aluMultiply_assoc (p q r : Word) : aluMultiply (aluMultiply p q) r = aluMultiply p (aluMultiply q r) := by
  refine reduce_eq_of_modEq ?_
  calc (reduce (p.toNat * q.toNat)).toNat * r.toNat
    _ ≡ p.toNat * q.toNat * r.toNat [MOD 32768] := (reduce_modEq _).mul_right _
    _ = p.toNat * (q.toNat * r.toNat) := Nat.mul_assoc _ _ _
    _ ≡ p.toNat * (reduce (q.toNat * r.toNat)).toNat [MOD 32768] := (reduce_modEq _).symm.mul_left _

theorem aluMultiply_aluAdd (p q r : Word) :
    aluMultiply p (aluAdd q r) = aluAdd (aluMultiply p q) (aluMultiply p r) := by
  refine reduce_eq_of_modEq ?_
  calc p.toNat * (reduce (q.toNat + r.toNat)).toNat
    _ ≡ p.toNat * (q.toNat + r.toNat) [MOD 32768] := (reduce_modEq _).mul_left _
    _ = p.toNat * q.toNat + p.toNat * r.toNat := Nat.mul_add _ _ _
    _ ≡ (reduce (p.toNat * q.toNat)).toNat + (reduce (p.toNat * r.toNat)).toNat [MOD 32768] :=
      (reduce_modEq _).symm.add (reduce_modEq _).symm

/-- Settles O53: the laws are those of the natural numbers, which reduction respects. -/
theorem arithmeticLaws : Obligations.ArithmeticLaws :=
  fun p q r => ⟨aluAdd_comm p q, aluMultiply_comm p q, aluAdd_assoc p q r, aluMultiply_assoc p q r,
    aluMultiply_aluAdd p q r, reduce_toNat _, reduce_toNat_lt _, reduce_toNat_lt _, reduce_toNat_lt _⟩

/-! ### Bitwise operations -/

/-- The mask has exactly bits 14 to 0. -/
theorem valueMask_getLsbD (k : Nat) : valueMask.getLsbD k = decide (k < 15) := by
  have hlow : ∀ j : Fin 16, valueMask.getLsbD j.val = decide (j.val < 15) := by decide
  by_cases hk : k < 16
  · exact hlow ⟨k, hk⟩
  · rw [BitVec.getLsbD_of_ge _ _ (by omega), decide_eq_false (by omega)]

/-- not complements bits 14 to 0 and keeps bit 15 (R90). -/
theorem aluNot_getLsbD (p : Word) (k : Nat) : (aluNot p).getLsbD k = (p.getLsbD k ^^ decide (k < 15)) := by
  rw [aluNot, BitVec.getLsbD_xor, valueMask_getLsbD]

/-- Words below 32768 are equal if bits 14 to 0 are. -/
theorem eq_of_low_bits {p q : Word} (hp : p.toNat < 32768) (hq : q.toNat < 32768)
    (h : ∀ k, k < 15 → p.getLsbD k = q.getLsbD k) : p = q := by
  have hhigh : ∀ (w : Word) (k : Nat), w.toNat < 32768 → 15 ≤ k → w.getLsbD k = false := fun w k hw hk =>
    Nat.testBit_lt_two_pow (Nat.lt_of_lt_of_le hw (Nat.pow_le_pow_right (n := 2) (by decide) hk))
  refine BitVec.eq_of_getLsbD_eq fun k _ => ?_
  by_cases hk : k < 15
  · exact h k hk
  · rw [hhigh p k hp (by omega), hhigh q k hq (by omega)]

theorem aluAnd_toNat_lt {p : Word} (hp : p.toNat < 32768) (q : Word) : (aluAnd p q).toNat < 32768 := by
  rw [aluAnd, BitVec.toNat_and]
  exact Nat.lt_of_le_of_lt Nat.and_le_left hp

theorem aluOr_toNat_lt {p q : Word} (hp : p.toNat < 32768) (hq : q.toNat < 32768) : (aluOr p q).toNat < 32768 := by
  rw [aluOr, BitVec.toNat_or]
  exact Nat.or_lt_two_pow (n := 15) hp hq

theorem aluNot_toNat_lt {p : Word} (hp : p.toNat < 32768) : (aluNot p).toNat < 32768 := by
  rw [aluNot, BitVec.toNat_xor]
  exact Nat.xor_lt_two_pow (n := 15) hp (by decide)

section FifteenBits

variable {p q : Word} (hp : p.toNat < 32768)
include hp

theorem aluNot_aluAnd (hq : q.toNat < 32768) : aluNot (aluAnd p q) = aluOr (aluNot p) (aluNot q) :=
  eq_of_low_bits (aluNot_toNat_lt (aluAnd_toNat_lt hp q)) (aluOr_toNat_lt (aluNot_toNat_lt hp) (aluNot_toNat_lt hq))
    fun k hk => by simp [aluAnd, aluOr, aluNot_getLsbD, hk]

theorem aluNot_aluOr (hq : q.toNat < 32768) : aluNot (aluOr p q) = aluAnd (aluNot p) (aluNot q) :=
  eq_of_low_bits (aluNot_toNat_lt (aluOr_toNat_lt hp hq)) (aluAnd_toNat_lt (aluNot_toNat_lt hp) _)
    fun k hk => by simp [aluAnd, aluOr, aluNot_getLsbD, hk]

theorem aluAnd_aluNot : aluAnd p (aluNot p) = 0#16 :=
  eq_of_low_bits (aluAnd_toNat_lt hp _) (by decide) fun k hk => by simp [aluAnd, aluNot_getLsbD, hk]

theorem aluOr_aluNot : aluOr p (aluNot p) = valueMask :=
  eq_of_low_bits (aluOr_toNat_lt hp (aluNot_toNat_lt hp)) (by decide)
    fun k hk => by simp [aluOr, aluNot_getLsbD, valueMask_getLsbD, hk]

/-- A word below 32768 and its not have no bit in common, so that their sum is their disjunction. -/
theorem toNat_add_aluNot : p.toNat + (aluNot p).toNat = 32767 := by
  have hsum : p + aluNot p = valueMask :=
    (BitVec.add_eq_or_of_and_eq_zero p (aluNot p) (aluAnd_aluNot hp)).trans (aluOr_aluNot hp)
  have hlt := aluNot_toNat_lt hp
  have hnat := congrArg BitVec.toNat hsum
  rw [BitVec.toNat_add, show valueMask.toNat = 32767 from rfl] at hnat
  omega

end FifteenBits

/-- Settles O54: De Morgan's laws bit by bit, and the complements from the sum of a word and its not. -/
theorem bitwiseLaws : Obligations.BitwiseLaws := by
  intro p q hp hq
  have hplt : p.toNat < 32768 := Nat.lt_succ_of_le hp
  have hqlt : q.toNat < 32768 := Nat.lt_succ_of_le hq
  have hsum := toNat_add_aluNot hplt
  have hadd : aluAdd p (aluNot p) = 32767#16 := by rw [aluAdd, hsum]; rfl
  exact ⟨aluNot_aluAnd hplt hqlt, aluNot_aluOr hplt hqlt, aluAnd_aluNot hplt, aluOr_aluNot hplt, hadd, by omega,
    Nat.le_of_lt_succ (aluAnd_toNat_lt hplt q), Nat.le_of_lt_succ (aluOr_toNat_lt hplt hqlt)⟩

end Sys2Proof.Machine
end

section
/-! PROOFS. What every instruction leaves unchanged and which errors it raises (spec/10_state.md section 1,
spec/60_exceptions.md section 1), read off `Effect` one field at a time. -/

namespace Sys2Proof.Machine

/-! ### One field at a time -/

section Frames

variable {i : Instr} {s t : State} (he : Effect i s t)
include he

theorem Effect.cycles_eq : t.cycles = s.cycles := by
  cases he <;> rfl

theorem Effect.config_eq : t.config = s.config := by
  cases he <;> rfl

/-- Only the destination register can change. -/
theorem Effect.getReg_eq {j : Fin 8} (hj : i.destination ≠ some (.reg j)) : t.getReg j = s.getReg j := by
  cases he with
  | register hdst _ => exact s.getReg_setReg_other _ j _ fun e => hj (e ▸ hdst)
  | @pop _ r v rest _ => exact (s.setStack rest).getReg_setReg_other r j v fun e => hj (e ▸ rfl)
  | @input _ r w rest _ => exact (s.setInq rest).getReg_setReg_other r j w fun e => hj (e ▸ rfl)
  | raised _ | push _ | jmp | jumpIfTrue | jumpIfFalse | store _ | call _ | retHalt _ | ret _ | output | block _ | halt
  | noop => rfl

/-- Only a store changes memory. -/
theorem Effect.mem_cases : t.mem = s.mem ∨ ∃ addr src, i = .writeMemory addr src ∧ (s.val addr).toNat < memWords ∧
    t.mem = s.mem.write (s.val addr).toNat (s.val src) := by
  cases he with
  | @store _ addr src h => exact .inr ⟨addr, src, rfl, h, rfl⟩
  | raised _ | register _ _ | push _ | pop _ | jmp | jumpIfTrue | jumpIfFalse | call _ | retHalt _ | ret _ | output
  | block _ | input _ | halt | noop => exact .inl rfl

/-- Only the word at the address of a store can change. -/
theorem Effect.memRead_eq {b : Word} (hb : ∀ addr src, i = .writeMemory addr src → b ≠ s.val addr) :
    t.memRead b = s.memRead b := by
  rcases he.mem_cases with hmem | ⟨addr, src, hi, -, hmem⟩
  · exact State.memRead_congr hmem b
  · have hne : b.toNat ≠ (s.val addr).toNat := fun e => hb addr src hi (BitVec.eq_of_toNat_eq e)
    rw [State.memRead, State.memRead, hmem, Memory.read_write, if_neg hne]

/-- The stack grows by push and call, and shrinks by pop and return, by one entry at the top. -/
theorem Effect.stack_cases : t.stack = s.stack ∨
    ((∃ o, i = .push o ∨ i = .call o) ∧ ∃ v, t.stack = v :: s.stack) ∨
    (((∃ o, i = .pop o) ∨ i = .ret) ∧ ∃ v, s.stack = v :: t.stack) := by
  cases he with
  | @push _ src _ => exact .inr (.inl ⟨⟨src, .inl rfl⟩, _, rfl⟩)
  | @call _ target _ => exact .inr (.inl ⟨⟨target, .inr rfl⟩, _, rfl⟩)
  | pop h => exact .inr (.inr ⟨.inl ⟨_, rfl⟩, _, h⟩)
  | ret h => exact .inr (.inr ⟨.inr rfl, _, h⟩)
  | raised _ | register _ _ | jmp | jumpIfTrue | jumpIfFalse | store _ | retHalt _ | output | block _ | input _ | halt
  | noop => exact .inl rfl

/-- The queue loses its oldest word, by input. -/
theorem Effect.inq_cases : t.inq = s.inq ∨ (∃ o, i = .input o) ∧ ∃ w, s.inq = w :: t.inq := by
  cases he with
  | input h => exact .inr ⟨⟨_, rfl⟩, _, h⟩
  | raised _ | register _ _ | push _ | pop _ | jmp | jumpIfTrue | jumpIfFalse | store _ | call _ | retHalt _ | ret _
  | output | block _ | halt | noop => exact .inl rfl

/-- The buffer gains one character, by output. -/
theorem Effect.outbuf_cases : t.outbuf = s.outbuf ∨ (∃ o, i = .output o) ∧ ∃ c, t.outbuf = s.outbuf ++ [c] := by
  cases he with
  | output => exact .inr ⟨⟨_, rfl⟩, _, rfl⟩
  | raised _ | register _ _ | push _ | pop _ | jmp | jumpIfTrue | jumpIfFalse | store _ | call _ | retHalt _ | ret _
  | block _ | input _ | halt | noop => exact .inl rfl

/-- `ip` moves by the transfers of control, and by a blocked input. -/
theorem Effect.ip_cases : t.ip = s.ip ∨ (∃ o, i = .jmp o) ∨ (∃ c o, i = .jumpIfTrue c o) ∨
    (∃ c o, i = .jumpIfFalse c o) ∨ (∃ o, i = .call o) ∨ i = .ret ∨ ∃ o, i = .input o := by
  cases he with
  | jmp | jumpIfTrue | jumpIfFalse | call _ | ret _ | block _ => simp
  | raised _ | register _ _ | push _ | pop _ | store _ | retHalt _ | output | input _ | halt | noop => exact .inl rfl

/-- `state` changes only by an error, a halt or a blocked input; the first and the last touch no data. -/
theorem Effect.state_cases : t.state = s.state ∨ (∃ c, Raises i s c ∧ t = s.raise c) ∨
    (t.state = .halted ∧ (i = .halt ∨ i = .ret ∧ s.stack = [])) ∨
    ((∃ dst, i = .input dst) ∧ s.inq = [] ∧ t = s.block) := by
  cases he with
  | raised h => exact .inr (.inl ⟨_, h, rfl⟩)
  | halt => exact .inr (.inr (.inl ⟨rfl, .inl rfl⟩))
  | retHalt h => exact .inr (.inr (.inl ⟨rfl, .inr ⟨rfl, h⟩⟩))
  | block h => exact .inr (.inr (.inr ⟨⟨_, rfl⟩, h, rfl⟩))
  | register _ _ | push _ | pop _ | jmp | jumpIfTrue | jumpIfFalse | store _ | call _ | ret _ | output | input _
  | noop => exact .inl rfl

end Frames

/-- Settles O35: each clause is the lemma of its field, with the instructions that the clause excludes ruled out. -/
theorem everyInstructionKeepsItsFrame : Obligations.EveryInstructionKeepsItsFrame := by
  intro i s t hexec
  have he := exec_eq_next hexec
  refine ⟨fun r hr => he.getReg_eq hr, fun hi a => he.memRead_eq fun addr src e => absurd e (hi addr src),
    fun addr src hi a ha => he.memRead_eq fun addr' src' e => ?_, fun hpush hpop hcall hret => ?_, fun hin => ?_,
    fun hout => ?_, fun hjmp htrue hfalse hcall hret hin => ?_, ?_, he.cycles_eq, he.config_eq⟩
  · obtain ⟨rfl, -⟩ := Instr.writeMemory.inj (hi.symm.trans e)
    exact ha
  · rcases he.stack_cases with h | ⟨⟨o, rfl | rfl⟩, -⟩ | ⟨⟨o, rfl⟩ | rfl, -⟩
    · exact h
    · exact absurd rfl (hpush o)
    · exact absurd rfl (hcall o)
    · exact absurd rfl (hpop o)
    · exact absurd rfl hret
  · exact he.inq_cases.resolve_right fun ⟨⟨o, h⟩, _⟩ => hin o h
  · exact he.outbuf_cases.resolve_right fun ⟨⟨o, h⟩, _⟩ => hout o h
  · rcases he.ip_cases with h | ⟨o, h⟩ | ⟨c, o, h⟩ | ⟨c, o, h⟩ | ⟨o, h⟩ | h | ⟨o, h⟩
    · exact h
    · exact absurd h (hjmp o)
    · exact absurd h (htrue c o)
    · exact absurd h (hfalse c o)
    · exact absurd h (hcall o)
    · exact absurd h hret
    · exact absurd h (hin o)
  · rcases he.state_cases with h | ⟨c, -, rfl⟩ | ⟨h, -⟩ | ⟨-, -, rfl⟩
    · exact .inl h
    · exact .inr (.inr (.inr ⟨c, rfl⟩))
    · exact .inr (.inl h)
    · exact .inr (.inr (.inl rfl))

/-- Settles O37: an error that is new after an instruction was raised by it, and `Raises` lists the instruction and the
condition of every cause. -/
theorem executeErrorsHaveTheirCause : Obligations.ExecuteErrorsHaveTheirCause := by
  intro i s t c hexec hnew ht
  cases (exec_eq_next hexec).raises_of_errored (hnew c) ht with
  | literal h => exact .inl ⟨_, rfl, h⟩
  | underflow h => exact .inr (.inl ⟨rfl, h, _, rfl⟩)
  | zeroDivisor h => exact .inr (.inr (.inl ⟨rfl, _, _, _, rfl, h⟩))
  | pushFull h => exact .inr (.inr (.inr (.inl ⟨rfl, h, _, .inl rfl⟩)))
  | callFull h => exact .inr (.inr (.inr (.inl ⟨rfl, h, _, .inr rfl⟩)))
  | @readRange _ dst addr h => exact .inr (.inr (.inr (.inr ⟨addr, dst, .inl rfl, rfl, h⟩)))
  | @writeRange _ addr src h => exact .inr (.inr (.inr (.inr ⟨addr, src, .inr rfl, rfl, h⟩)))

end Sys2Proof.Machine
end

section
/-! PROOFS. The rules about every step (spec/49_run_loop_host.md sections 2 and 3) and the invariants that every step keeps
(spec/10_state.md sections 5 and 11, spec/20_memory.md, spec/70_reset_and_hazards.md section 5). -/

namespace Sys2Proof.Machine

/-! ### What a step does beside its instruction -/

/-- A decoded instruction is well formed and has used its own number of words. -/
theorem State.wf_of_decoded {s : State} {i : Instr} {n : Nat} (h : s.decoded = .instr i n) :
    (∀ op ∈ i.operands, op.wf = true) ∧ n = i.operands.length + 1 := by
  obtain ⟨hwf, -, hn⟩ := decode_startsWithEncoding h
  exact ⟨Instr.wf_iff.mp hwf, by rw [hn, encode_length]⟩

/-- Entering a run touches `state` only. -/
theorem State.enterRun_eq_setState (s : State) : ∃ e, s.enterRun = s.setState e := by
  unfold State.enterRun
  split
  · exact ⟨.running, rfl⟩
  · exact ⟨.running, rfl⟩
  all_goals exact ⟨s.state, rfl⟩

/-- An operand resolves in the prepared state as before it. -/
@[simp] theorem State.val_prepared (s : State) (n : Nat) (op : Operand) : (s.prepared n).val op = s.val op :=
  State.val_congr (s.prepared_x n) op

/-- A step leaves memory and all data as they are, or is the effect of the decoded instruction on the prepared state. -/
theorem step_keeps_or_effect {s t : State} (h : step s = .next t) :
    (State.sameData s t ∧ t.mem = s.mem ∧ (t.cycles = s.cycles ∨ t.cycles = s.cycles + 1)) ∨
    (s.state = .running ∧ ∃ i n, s.decoded = .instr i n ∧ Effect i (s.prepared n) t) := by
  rcases step_cases h with ⟨-, rfl⟩ | ⟨-, e, n, -, rfl⟩ | ⟨-, i, n, -, -, rfl⟩ | ⟨hrun, i, n, hd, -, -, he⟩
  · obtain ⟨e, he⟩ := s.enterRun_eq_setState
    rw [he]
    exact .inl ⟨by simp [State.sameData], rfl, .inl rfl⟩
  · exact .inl ⟨s.sameData_decodeFailure e n, rfl, .inl rfl⟩
  · exact .inl ⟨s.sameData_prepared_raise n _, rfl, .inr rfl⟩
  · exact .inr ⟨hrun, i, n, hd, he⟩

/-! ### Errors and single changes -/

/-- Settles O38: an instruction that errs has only raised; every other way to an error is no instruction's effect. -/
theorem failingStepWritesNothing : Obligations.FailingStepWritesNothing := by
  intro s t c hstep ht
  rcases step_keeps_or_effect hstep with ⟨hdata, -, -⟩ | ⟨hrun, i, n, -, he⟩
  · exact hdata
  · rcases he.state_cases with hsame | ⟨d, -, rfl⟩ | ⟨hhalt, -⟩ | ⟨-, -, rfl⟩
    · rw [ht, State.prepared_state, hrun] at hsame
      cases hsame
    · exact s.sameData_prepared_raise n d
    · rw [ht] at hhalt
      cases hhalt
    · cases ht

/-- Settles O39: the fields of the decoded instruction's effect, one by one. -/
theorem stepChangesAtMostOneOfEach : Obligations.StepChangesAtMostOneOfEach := by
  intro s t hstep
  rcases step_keeps_or_effect hstep with ⟨⟨hreg, hmem, hstack, hinq, hout, hconfig⟩, -, hcycles⟩ | ⟨-, i, n, hd, he⟩
  · exact ⟨fun j _ => hreg j, fun b _ => hmem b, .inl hstack, .inl hinq, .inl hout, hcycles, hconfig⟩
  · refine ⟨fun j hj => he.getReg_eq (hj i n hd), fun b hb => he.memRead_eq fun addr src hi => ?_, ?_, ?_, ?_,
      .inr he.cycles_eq, he.config_eq⟩
    · rw [State.val_prepared]
      exact hb addr src n (hi ▸ hd)
    · rcases he.stack_cases with h | ⟨-, h⟩ | ⟨-, h⟩
      · exact .inl h
      · exact .inr (.inl h)
      · exact .inr (.inr h)
    · exact he.inq_cases.imp_right And.right
    · exact he.outbuf_cases.imp_right And.right

/-! ### The execution state -/

/-- Where a step takes a running machine (R16, R105, R110, R100). -/
theorem step_state_of_running {s t : State} (hrun : s.state = .running) (hstep : step s = .next t) :
    t.state ≠ .initialized ∧
    (t.state = .waitingForInput →
      (∃ dst, s.decoded = .instr (.input dst) 2) ∧ s.inq = [] ∧ t.inq = [] ∧ t.ip = s.ip) ∧
    (t.state = .halted → s.decoded = .instr .halt 1 ∨ (s.decoded = .instr .ret 1 ∧ s.stack = [])) := by
  rcases step_cases hstep with ⟨hnot, -⟩ | ⟨-, e, n, -, rfl⟩ | ⟨-, i, n, -, -, rfl⟩ | ⟨-, i, n, hd, -, -, he⟩
  · exact absurd hrun hnot
  · exact ⟨nofun, nofun, nofun⟩
  · exact ⟨nofun, nofun, nofun⟩
  · obtain ⟨-, hn⟩ := State.wf_of_decoded hd
    rcases he.state_cases with hsame | ⟨d, -, rfl⟩ | ⟨hhalt, rfl | ⟨rfl, hstack⟩⟩ | ⟨⟨dst, rfl⟩, hinq, rfl⟩
    · rw [hsame, State.prepared_state, hrun]
      exact ⟨nofun, nofun, nofun⟩
    · exact ⟨nofun, nofun, nofun⟩
    · subst hn
      rw [hhalt]
      exact ⟨nofun, nofun, fun _ => .inl hd⟩
    · subst hn
      rw [hhalt]
      exact ⟨nofun, nofun, fun _ => .inr ⟨hd, hstack⟩⟩
    · subst hn
      exact ⟨nofun, fun _ => ⟨⟨dst, hd⟩, hinq, hinq, BitVec.add_sub_cancel s.ip 2#16⟩, nofun⟩

/-- Settles O40: outside `Running` the step is the entry of a run, which is computed in each state. -/
theorem stateTransitionsAreTheListedOnes : Obligations.StateTransitionsAreTheListedOnes := by
  intro s
  cases hs : s.state with
  | running =>
    obtain ⟨t, ht⟩ := step_exists_next s
    exact ⟨t, ht, step_state_of_running hs ht⟩
  | initialized | waitingForInput =>
    exact ⟨s.enterRun, step_of_not_running (by rw [hs]; exact nofun), by rw [State.enterRun, hs]; rfl⟩
  | halted | errored _ =>
    exact ⟨s.enterRun, step_of_not_running (by rw [hs]; exact nofun), State.enterRun_of_terminal (by rw [hs]; rfl)⟩

/-! ### Invariants -/

/-- Settles O43: memory changes only by a store, at an address that passed the range check. -/
theorem stepKeepsMemoryCanonical : Obligations.StepKeepsMemoryCanonical := by
  intro s t hwf hstep
  rcases step_keeps_or_effect hstep with ⟨-, hmem, -⟩ | ⟨-, i, n, -, he⟩
  · exact hmem ▸ hwf
  · rcases he.mem_cases with hmem | ⟨addr, src, -, hlt, hmem⟩
    · exact hmem ▸ hwf
    · exact hmem ▸ Memory.write_wf hwf hlt _

/-- Entering a run makes no machine able to run that was not: a terminal one stays as it is (R120). -/
theorem State.enterRun_withinBudget {s : State} (h : s.withinBudget) : s.enterRun.withinBudget := by
  by_cases hterm : s.state.terminal = true
  · rwa [State.enterRun_of_terminal hterm]
  · obtain ⟨e, he⟩ := s.enterRun_eq_setState
    rw [he]
    exact ⟨h.1, fun _ => h.2 (Bool.eq_false_of_not_eq_true hterm)⟩

/-- Settles O45: a failed decode counts nothing and is terminal; a count that reaches the ceiling is terminal too; and
only a count below the ceiling leads to an instruction, which leaves the count alone. -/
theorem stepKeepsCyclesWithinBudget : Obligations.StepKeepsCyclesWithinBudget := by
  intro s t hbudget hstep
  obtain ⟨hle, hbelow⟩ := hbudget
  rcases step_cases hstep with ⟨-, rfl⟩ | ⟨-, e, n, -, rfl⟩ | ⟨hrun, i, n, -, -, rfl⟩ | ⟨-, i, n, -, hlt, -, he⟩
  · exact State.enterRun_withinBudget ⟨hle, hbelow⟩
  · exact ⟨hle, nofun⟩
  · exact ⟨hbelow (by rw [hrun]; rfl), nofun⟩
  · rw [State.withinBudget, he.cycles_eq, he.config_eq]
    exact ⟨Nat.le_of_lt hlt, fun _ => hlt⟩

/-- An instruction adds at most one stack entry. -/
theorem Effect.stack_length_le {i : Instr} {s t : State} (he : Effect i s t) :
    t.stack.length ≤ s.stack.length + 1 := by
  rcases he.stack_cases with h | ⟨-, v, h⟩ | ⟨-, v, h⟩ <;> simp only [h, List.length_cons] <;> omega

/-- An instruction adds at most one character. -/
theorem Effect.outbuf_length_le {i : Instr} {s t : State} (he : Effect i s t) :
    t.outbuf.length ≤ s.outbuf.length + 1 := by
  rcases he.outbuf_cases with h | ⟨-, c, h⟩ <;> simp [h]

/-- No instruction raises `CycleCeiling`, which is the governor's (R143). -/
theorem Effect.state_ne_cycleCeiling {i : Instr} {s t : State} (he : Effect i s t) (hrun : s.state = .running) :
    t.state ≠ .errored .cycleCeiling :=
  fun ht => nomatch he.raises_of_errored (by rw [hrun]; exact nofun) ht

/-- No failed decode raises `CycleCeiling`. -/
theorem causeOf_ne_cycleCeiling (ip : Word) (e : DecodeError) : causeOf ip e ≠ .cycleCeiling := by
  cases e <;> exact nofun

/-- Settles O46: an instruction adds at most one entry and has been counted; the ceiling's own count adds none. -/
theorem stackAndOutputStayBoundedByCycles : Obligations.StackAndOutputStayBoundedByCycles := by
  intro s t hstack hout hstep
  rcases step_cases hstep with ⟨hnot, rfl⟩ | ⟨-, e, n, -, rfl⟩ | ⟨-, i, n, -, -, rfl⟩ | ⟨hrun, i, n, -, -, -, he⟩
  · obtain ⟨e, he⟩ := s.enterRun_eq_setState
    rw [he]
    exact ⟨hstack, hout, fun hrun => absurd hrun hnot⟩
  · exact ⟨hstack, hout, fun _ ht => absurd (ExecState.errored.inj ht) (causeOf_ne_cycleCeiling _ e)⟩
  · exact ⟨Nat.le_succ_of_le hstack, Nat.le_succ_of_le hout,
      fun _ _ => ⟨Nat.lt_succ_of_le hstack, Nat.lt_succ_of_le hout⟩⟩
  · rw [he.cycles_eq]
    exact ⟨Nat.le_trans he.stack_length_le (Nat.succ_le_succ hstack),
      Nat.le_trans he.outbuf_length_le (Nat.succ_le_succ hout), fun _ ht => absurd ht (he.state_ne_cycleCeiling hrun)⟩

/-! ### Values below 32768 -/

/-- Registers, stack entries and queued words are below 32768 (R28). -/
structure State.FifteenBit (s : State) : Prop where
  regs : ∀ r, (s.getReg r).toNat < 32768
  stack : ∀ v ∈ s.stack, v.toNat < 32768
  inq : ∀ w ∈ s.inq, w.toNat < 32768

/-- A well-formed operand resolves to a word below 32768 where the registers are. -/
theorem State.FifteenBit.val_lt {s : State} (hs : s.FifteenBit) {op : Operand} (hop : op.wf = true) :
    (s.val op).toNat < 32768 := by
  cases op with
  | lit v => exact of_decide_eq_true hop
  | reg r => exact hs.regs r

theorem comparisonWord_toNat_lt (b : Bool) : (comparisonWord b).toNat < 32768 := by
  cases b <;> decide

/-- The result of a well-formed instruction is below 32768, if it is no loaded word. -/
theorem State.FifteenBit.result_lt {s : State} (hs : s.FifteenBit) {i : Instr} {v : Word}
    (hwf : ∀ op ∈ i.operands, op.wf = true)
    (hload : ∀ dst addr, i = .readMemory dst addr → ∀ w, s.memRead (s.val addr) = some w → w.toNat < 32768)
    (hv : resultOf s i = some v) : v.toNat < 32768 := by
  have hval : ∀ op ∈ i.operands, (s.val op).toNat < 32768 := fun op hop => hs.val_lt (hwf op hop)
  cases i with
  | readMemory dst addr => exact hload dst addr rfl v hv
  | modulo dst a b =>
    simp only [resultOf] at hv
    split at hv
    · cases hv
    · obtain rfl := Option.some.inj hv
      exact reduce_toNat_lt _
  | set dst src =>
    obtain rfl := Option.some.inj hv
    exact hval src (by simp [Instr.operands])
  | eq dst a b | gt dst a b =>
    obtain rfl := Option.some.inj hv
    exact comparisonWord_toNat_lt _
  | add dst a b | multiply dst a b =>
    obtain rfl := Option.some.inj hv
    exact reduce_toNat_lt _
  | and dst a b =>
    obtain rfl := Option.some.inj hv
    exact aluAnd_toNat_lt (hval a (by simp [Instr.operands])) _
  | or dst a b =>
    obtain rfl := Option.some.inj hv
    exact aluOr_toNat_lt (hval a (by simp [Instr.operands])) (hval b (by simp [Instr.operands]))
  | not dst a =>
    obtain rfl := Option.some.inj hv
    exact aluNot_toNat_lt (hval a (by simp [Instr.operands]))
  | halt | push _ | pop _ | jmp _ | jumpIfTrue _ _ | jumpIfFalse _ _ | writeMemory _ _ | call _ | ret | output _
  | input _ | noop => cases hv

/-- Writing a word below 32768 to a register. -/
theorem State.FifteenBit.setReg {s : State} (hs : s.FifteenBit) (r : Fin 8) {v : Word} (hv : v.toNat < 32768) :
    (s.setReg r v).FifteenBit := by
  refine ⟨fun j => ?_, hs.stack, hs.inq⟩
  by_cases hj : j = r
  · rwa [hj, State.getReg_setReg_same]
  · rw [State.getReg_setReg_other _ _ _ _ hj]
    exact hs.regs j

/-- The effect of a well-formed instruction keeps the values below 32768, if it neither loads a larger word nor pushes a
larger return address. -/
theorem Effect.fifteenBit {i : Instr} {s t : State} (he : Effect i s t) (hs : s.FifteenBit)
    (hwf : ∀ op ∈ i.operands, op.wf = true)
    (hload : ∀ dst addr, i = .readMemory dst addr → ∀ w, s.memRead (s.val addr) = some w → w.toNat < 32768)
    (hcall : ∀ target, i = .call target → s.ip.toNat < 32768) : t.FifteenBit := by
  cases he with
  | @register _ _ r v _ hv => exact hs.setReg r (hs.result_lt hwf hload hv)
  | @push _ src _ =>
    exact ⟨hs.regs, List.forall_mem_cons.mpr ⟨hs.val_lt (hwf src (by simp [Instr.operands])), hs.stack⟩, hs.inq⟩
  | @call _ target _ => exact ⟨hs.regs, List.forall_mem_cons.mpr ⟨hcall target rfl, hs.stack⟩, hs.inq⟩
  | @pop _ r v rest h =>
    obtain ⟨hv, hrest⟩ := List.forall_mem_cons.mp (h ▸ hs.stack)
    exact State.FifteenBit.setReg (s := s.setStack rest) ⟨hs.regs, hrest, hs.inq⟩ r hv
  | @ret _ v rest h => exact ⟨hs.regs, (List.forall_mem_cons.mp (h ▸ hs.stack)).2, hs.inq⟩
  | @input _ r w rest h =>
    obtain ⟨hw, hrest⟩ := List.forall_mem_cons.mp (h ▸ hs.inq)
    exact State.FifteenBit.setReg (s := s.setInq rest) ⟨hs.regs, hs.stack, hrest⟩ r hw
  | raised _ | jmp | jumpIfTrue | jumpIfFalse | store _ | retHalt _ | output | block _ | halt | noop =>
    exact ⟨hs.regs, hs.stack, hs.inq⟩

/-- Settles O47: the decoded instruction is well formed, and the two exceptions are the statement's premises; a call has
two words, so that one below 32766 pushes an address below 32768. -/
theorem fifteenBitValuesStayFifteenBit : Obligations.FifteenBitValuesStayFifteenBit := by
  intro s t hregs hstack hinq hload hcall hstep
  rcases step_keeps_or_effect hstep with ⟨⟨hreg, -, hst, hin, -, -⟩, -, -⟩ | ⟨-, i, n, hd, he⟩
  · exact ⟨fun r => hreg r ▸ hregs r, hst ▸ hstack, hin ▸ hinq⟩
  · obtain ⟨hwf, hn⟩ := State.wf_of_decoded hd
    have hprepared : (s.prepared n).FifteenBit := ⟨hregs, hstack, hinq⟩
    obtain ⟨hregs', hstack', hinq'⟩ := he.fifteenBit hprepared hwf
      (fun dst addr hi w hw => hload dst addr n w (hi ▸ hd) (by simpa using hw))
      (fun target hi => by
        subst hi hn
        have hip := hcall target 2 hd
        exact (State.advance_ip_toNat (n := 2) (by omega)).trans_lt (by omega))
    exact ⟨hregs', hstack', hinq'⟩

end Sys2Proof.Machine
end

section
/-! PROOFS. The statements about memory (spec/20_memory.md): the canonical form determines the list, the two primitives, and
that a store is seen by the next fetch. -/

namespace Sys2Proof.Machine

/-! ### The canonical form -/

/-- A word that is not the fill word is listed. -/
theorem Memory.mem_of_read_ne_fill {m : Memory} {a : Nat} (h : m.read a ≠ Memory.fill) : (a, m.read a) ∈ m := by
  induction m with
  | nil => exact absurd rfl h
  | cons cell m ih =>
    obtain ⟨k, w⟩ := cell
    by_cases hk : k = a
    · simp [Memory.read_cons, hk]
    · rw [Memory.read_cons, if_neg hk] at h ⊢
      exact List.mem_cons_of_mem _ (ih h)

/-- Where addresses rise strictly, a listed word is the one that is read. -/
theorem Memory.read_of_mem {m : Memory} (hm : m.Pairwise fun p q => p.1 < q.1) {a : Nat} {v : Word} (h : (a, v) ∈ m) :
    m.read a = v := by
  induction m with
  | nil => cases h
  | cons cell m ih =>
    obtain ⟨k, w⟩ := cell
    obtain ⟨hhead, htail⟩ := List.pairwise_cons.mp hm
    rcases List.mem_cons.mp h with heq | hmem
    · obtain ⟨rfl, rfl⟩ := Prod.mk.inj heq
      rw [Memory.read_cons, if_pos rfl]
    · rw [Memory.read_cons, if_neg (Nat.ne_of_lt (hhead _ hmem))]
      exact ih htail hmem

/-- The entries of a canonical memory are its words other than the fill word. -/
theorem Memory.mem_iff_read {m : Memory} (hm : m.wf) {a : Nat} {v : Word} :
    (a, v) ∈ m ↔ a < memWords ∧ v ≠ Memory.fill ∧ m.read a = v := by
  obtain ⟨hsorted, hcells⟩ := hm
  constructor
  · intro h
    exact ⟨(hcells _ h).1, (hcells _ h).2, Memory.read_of_mem hsorted h⟩
  · rintro ⟨-, hne, rfl⟩
    exact Memory.mem_of_read_ne_fill hne

/-- Settles O44: two strictly rising lists with the same entries are the same list. -/
theorem canonicalMemoriesAreDetermined : Obligations.CanonicalMemoriesAreDetermined := by
  intro m n hm hn hread
  have hirrefl : Std.Irrefl fun p q : Nat × Word => p.1 < q.1 := ⟨fun _ => Nat.lt_irrefl _⟩
  have hantisymm : Std.Antisymm fun p q : Nat × Word => p.1 < q.1 := ⟨fun _ _ h h' => absurd h' (Nat.lt_asymm h)⟩
  refine hm.1.eq_of_mem_iff hn.1 fun ⟨a, v⟩ => ?_
  rw [Memory.mem_iff_read hm, Memory.mem_iff_read hn]
  exact and_congr_right fun ha => by rw [hread a ha]

/-! ### Stores -/

/-- A store into memory changes the word at its address and nothing else. -/
theorem State.onlyMemoryAt_of_memWrite {s t : State} {a v : Word} (h : s.memWrite a v = some t) :
    State.onlyMemoryAt a s t := by
  refine ⟨fun b hb => by rw [State.memRead_of_write h, if_neg hb], ?_⟩
  obtain ⟨-, rfl⟩ := State.memWrite_eq_some.mp h
  exact ⟨fun _ => rfl, rfl, rfl, rfl, rfl, rfl, rfl, rfl⟩

/-- A write to an address of memory answers. -/
theorem State.memWrite_of_lt {s : State} {a : Word} (h : a.toNat < memWords) (v : Word) :
    s.memWrite a v = some (s.setMem (s.mem.write a.toNat v)) :=
  State.memWrite_eq_some.mpr ⟨h, rfl⟩

/-- Settles O50: what a write answers, read back, compared and checked for the form. -/
theorem memoryReadsLastWrite : Obligations.MemoryReadsLastWrite := by
  refine fun s a v => ⟨fun ha => ?_, fun ha => ⟨State.memRead_eq_none.mpr ha, State.memWrite_eq_none.mpr ha⟩⟩
  have hlt : a.toNat < memWords := Nat.lt_succ_of_le ha
  have hwrite := s.memWrite_of_lt hlt v
  exact ⟨_, hwrite, by rw [State.memRead_of_write hwrite, if_pos rfl], State.onlyMemoryAt_of_memWrite hwrite,
    fun hwf => Memory.write_wf hwf hlt v⟩

/-- write-memory with an address of memory stores (R95). -/
theorem exec_writeMemory_of_le {s : State} {addr : Operand} (h : (s.val addr).toNat ≤ 32767) (src : Operand) :
    exec (.writeMemory addr src) s = .next (s.setMem (s.mem.write (s.val addr).toNat (s.val src))) := by
  rw [exec, execWriteMemory, State.memWrite_of_lt (Nat.lt_succ_of_le h)]

/-- A store of the `k`-th word completes a list of words whose others stand in memory. -/
theorem State.holdsAt_of_store {s : State} {a k : Nat} {ws : List Word} {v : Word} (hk : ws[k]? = some v)
    (hlt : a + k < 32768) (hothers : ∀ j w, j ≠ k → ws[j]? = some w → a + j < 32768 ∧ s.mem.read (a + j) = w) :
    (s.setMem (s.mem.write (a + k) v)).holdsAt a ws := by
  intro j w hj
  rw [State.setMem_mem, Memory.read_write]
  by_cases hjk : j = k
  · subst hjk
    exact ⟨hlt, by rw [if_pos rfl]; exact Option.some.inj (hk.symm.trans hj)⟩
  · rw [if_neg (by omega)]
    exact hothers j w hjk hj

/-- A store of the word after a list of words that stand in memory. -/
theorem State.holdsAt_append_of_store {s : State} {a : Nat} {ws : List Word} (h : s.holdsAt a ws)
    (hlt : a + ws.length < 32768) (v : Word) : (s.setMem (s.mem.write (a + ws.length) v)).holdsAt a (ws ++ [v]) := by
  refine State.holdsAt_of_store (by simp) hlt fun j w hj hw => h j w ?_
  have hlen : j < (ws ++ [v]).length := (List.getElem?_eq_some_iff.mp hw).1
  rwa [List.getElem?_append_left] at hw
  rw [List.length_append, List.length_singleton] at hlen
  omega

/-- Settles O49: in each clause the store completes words at `ip`, which decide what the next step decodes. -/
theorem storeIsSeenByNextFetch : Obligations.StoreIsSeenByNextFetch := by
  intro s addr src hrun haddr hcycle
  refine ⟨_, exec_writeMemory_of_le haddr src, fun i k hwf hk hword hothers => ?_, fun hip hunknown => ?_,
    fun w n before hw hlen hvalid hwords hend hbad => ?_⟩
  · rw [hk]
    have hwords := State.holdsAt_of_store hword (by omega) hothers
    exact step_of_decoded_instr hrun (State.decoded_of_holdsAt hwf hwords) hcycle
  · rw [hip] at haddr ⊢
    have hwords := State.holdsAt_append_of_store (s := s) (ws := []) (a := s.ip.toNat) nofun (Nat.lt_succ_of_le haddr)
      (s.val src)
    exact ⟨_, step_of_decoded_fail hrun (State.decoded_of_unknown hwords hunknown), rfl⟩
  · have hwords' := State.holdsAt_append_of_store hwords (by simp only [List.length_cons]; omega) (s.val src)
    rw [show (s.val addr).toNat = s.ip.toNat + (w :: before).length from hend]
    exact ⟨_, step_of_decoded_fail hrun (State.decoded_of_invalid hw hlen hvalid hbad hwords'), rfl⟩

end Sys2Proof.Machine
end

section
/-! PROOFS. The statements about the instructions (spec/40_set_stack.md to spec/48_halt_noop.md): what each answers, in each
of its cases, and what its answer leaves unchanged. -/

namespace Sys2Proof.Machine

/-! ### Instructions whose one write is their destination register -/

theorem equalWord_eq (p q : Word) : equalWord p q = if p = q then 1#16 else 0#16 := by
  simp [equalWord, comparisonWord]

theorem greaterWord_eq (p q : Word) : greaterWord p q = if q.toNat < p.toNat then 1#16 else 0#16 := by
  simp [greaterWord, comparisonWord]

/-- Settles O4: the comparison's word is the one or zero of the statement. -/
theorem eqWritesOneOrZero : Obligations.EqWritesOneOrZero :=
  fun _ _ _ _ => ⟨rfl, writesDestination_of_exec_eq rfl (equalWord_eq _ _)⟩

/-- Settles O5: the comparison is of the words' numbers, the second operand's against the third's. -/
theorem gtComparesUnsignedStrictly : Obligations.GtComparesUnsignedStrictly :=
  fun _ _ _ _ => ⟨rfl, writesDestination_of_exec_eq rfl (greaterWord_eq _ _)⟩

/-- Settles O9: the ALU reduces the exact sum. -/
theorem addReducesExactSum : Obligations.AddReducesExactSum :=
  fun _ _ _ _ => writesDestination_of_exec_eq rfl (reduce_toNat _)

/-- Settles O10: the ALU reduces the exact product. -/
theorem multiplyReducesExactProduct : Obligations.MultiplyReducesExactProduct :=
  fun _ _ _ _ => ⟨rfl, writesDestination_of_exec_eq rfl (reduce_toNat _)⟩

/-- modulo by the word 0 raises its cause before it looks at its destination (R83, decisions D11, D12). -/
theorem exec_modulo_of_zero {s : State} {b : Operand} (h : s.val b = 0#16) (dst a : Operand) :
    exec (.modulo dst a b) s = .next (s.raise .moduloByZero) := by
  rw [exec, execModulo, if_pos h]

/-- modulo by another word writes the remainder (R83). -/
theorem exec_modulo_of_ne_zero {s : State} {b : Operand} (h : s.val b ≠ 0#16) (dst a : Operand) :
    exec (.modulo dst a b) s = writeDestination dst (aluModulo (s.val a) (s.val b)) s := by
  rw [exec, execModulo, if_neg h]

/-- Settles O11: the divisor's test decides between the error and the write. -/
theorem moduloWritesRemainder : Obligations.ModuloWritesRemainder :=
  fun s dst a _ => ⟨rfl, fun h => ⟨_, exec_modulo_of_zero h dst a, s.raised_raise _⟩,
    fun h => writesDestination_of_exec_eq (exec_modulo_of_ne_zero h dst a) (reduce_toNat _)⟩

/-- Settles O12: the ALU's word is the conjunction of all 16 bits. -/
theorem andIsBitwise : Obligations.AndIsBitwise :=
  fun _ _ _ _ => ⟨rfl, writesDestination_of_exec_eq rfl fun _ => BitVec.getLsbD_and⟩

/-- Settles O13: the ALU's word is the disjunction of all 16 bits. -/
theorem orIsBitwise : Obligations.OrIsBitwise :=
  fun _ _ _ _ => ⟨rfl, writesDestination_of_exec_eq rfl fun _ => BitVec.getLsbD_or⟩

/-- Settles O14: the mask complements the bits that it has and keeps the others. -/
theorem notComplementsFifteenBits : Obligations.NotComplementsFifteenBits :=
  fun _ _ _ => writesDestination_of_exec_eq rfl
    ⟨fun k hk => by rw [aluNot_getLsbD, decide_eq_true hk, Bool.xor_true],
      by rw [aluNot_getLsbD]; exact Bool.xor_false _⟩

/-- read-memory of an address that does not exist raises its cause before it looks at its destination (R94, D12). -/
theorem exec_readMemory_of_gt {s : State} {addr : Operand} (h : 32767 < (s.val addr).toNat) (dst : Operand) :
    exec (.readMemory dst addr) s = .next (s.raise (.addressOutOfRange (s.val addr))) := by
  rw [exec, execReadMemory, State.memRead_eq_none.mpr h]

/-- read-memory writes the word that stands at its address (R94). -/
theorem exec_readMemory_of_memRead {s : State} {addr : Operand} {v : Word} (h : s.memRead (s.val addr) = some v)
    (dst : Operand) : exec (.readMemory dst addr) s = writeDestination dst v s := by
  rw [exec, execReadMemory, h]

/-- Settles O15: the range check decides between the error and the write. -/
theorem readMemoryLoadsWord : Obligations.ReadMemoryLoadsWord := by
  refine fun s dst addr => ⟨rfl, fun h => ⟨_, exec_readMemory_of_gt h dst, s.raised_raise _⟩, fun h => ?_⟩
  have hread : s.memRead (s.val addr) = some (s.mem.read (s.val addr).toNat) :=
    State.memRead_eq_some.mpr ⟨Nat.lt_succ_of_le h, rfl⟩
  exact writesDestination_of_exec_eq (exec_readMemory_of_memRead hread dst) hread

/-! ### write-memory -/

/-- write-memory to an address that does not exist raises its cause (R95). -/
theorem exec_writeMemory_of_gt {s : State} {addr : Operand} (h : 32767 < (s.val addr).toNat) (src : Operand) :
    exec (.writeMemory addr src) s = .next (s.raise (.addressOutOfRange (s.val addr))) := by
  rw [exec, execWriteMemory, State.memWrite_eq_none.mpr h]

/-- Settles O16: a store is `MemWrite`'s, whose frame `onlyMemoryAt_of_memWrite` gives. -/
theorem writeMemoryStoresWord : Obligations.WriteMemoryStoresWord := by
  refine fun s addr src => ⟨fun h => ⟨_, exec_writeMemory_of_gt h src, s.raised_raise _⟩, fun h => ?_⟩
  have hwrite := s.memWrite_of_lt (Nat.lt_succ_of_le h) (s.val src)
  exact ⟨_, exec_writeMemory_of_le h src, by rw [State.memRead_of_write hwrite, if_pos rfl],
    State.onlyMemoryAt_of_memWrite hwrite⟩

/-! ### The stack -/

/-- push with room puts its source on top (R67). -/
theorem exec_push_of_room {s : State} (h : s.stackFull = false) (src : Operand) :
    exec (.push src) s = .next (s.push (s.val src)) := by
  simp [exec, execPush, h]

/-- push on a full stack raises its cause (R145, decision D4). -/
theorem exec_push_of_full {s : State} (h : s.stackFull = true) (src : Operand) :
    exec (.push src) s = .next (s.raise .stackOverflow) := by
  simp [exec, execPush, h]

/-- Settles O2: the two cases of the stack, and what full means. -/
theorem pushAddsTopEntry : Obligations.PushAddsTopEntry :=
  fun s src => ⟨rfl,
    fun h => ⟨_, exec_push_of_room h src, rfl, ⟨rfl, rfl, rfl, rfl, rfl, rfl, rfl⟩, fun _ => rfl, fun _ => rfl⟩,
    fun h => ⟨_, exec_push_of_full h src, s.raised_raise _⟩, s.stackFull_iff⟩

/-- pop moves the top entry to a register (R68). -/
theorem exec_pop_reg {s : State} {v : Word} {rest : List Word} (h : s.stack = v :: rest) (r : Fin 8) :
    exec (.pop (.reg r)) s = .next ((s.setStack rest).setReg r v) := by
  rw [exec, execPop, State.pop, h]
  rfl

/-- pop to a literal raises and removes nothing (R141, decision D12). -/
theorem exec_pop_lit {s : State} (h : s.stack ≠ []) (l : Word) :
    exec (.pop (.lit l)) s = .next (s.raise (.writeToImmediate l)) := by
  obtain ⟨v, rest, hstack⟩ := List.exists_cons_of_ne_nil h
  rw [exec, execPop, State.pop, hstack]
  rfl

/-- Settles O3: the empty stack, and with a top entry the two forms of the destination. -/
theorem popTakesTopEntry : Obligations.PopTakesTopEntry := by
  refine fun s dst => ⟨rfl, fun h => ⟨_, exec_pop_of_empty h dst, s.raised_raise _⟩, fun v rest h => ⟨?_, ?_⟩⟩
  · rintro r rfl
    exact ⟨_, exec_pop_reg h r, State.getReg_setReg_same _ r v, rfl, State.onlyRegister_setReg _ r v⟩
  · rintro l rfl
    exact ⟨_, exec_pop_lit (by rw [h]; exact List.cons_ne_nil v rest) l, s.raised_raise _⟩

/-- A stack of no configured capacity is never full (decision D4). -/
theorem State.stackFull_of_unbounded {s : State} (h : s.config.stackCapacity = none) : s.stackFull = false := by
  rw [State.stackFull, h]

/-- Settles O51: each of the four is computed; the second pop's register is written last. -/
theorem pushesArePoppedInReverse : Obligations.PushesArePoppedInReverse := by
  intro s a b p q hconfig
  have hb : (s.push (s.val a)).val b = s.val b := State.val_congr (s.push_x _) b
  have hpush := exec_push_of_room (s := s.push (s.val a)) (State.stackFull_of_unbounded hconfig) b
  have hpop := exec_pop_reg (s := (s.push (s.val a)).push ((s.push (s.val a)).val b)) rfl p
  refine ⟨_, _, _, _, exec_push_of_room (State.stackFull_of_unbounded hconfig) a, hpush, hpop, exec_pop_reg rfl q, rfl,
    State.getReg_setReg_same _ q _, fun hpq => ?_, fun j hjp hjq => ?_, fun _ => rfl⟩
  · rw [State.getReg_setReg_other _ _ _ _ hpq, State.getReg_setStack, State.getReg_setReg_same, hb]
  · rw [State.getReg_setReg_other _ _ _ _ hjq, State.getReg_setStack, State.getReg_setReg_other _ _ _ _ hjp]
    rfl

/-! ### Transfers of control -/

/-- jump-if-true's answer is its effect (R76). -/
theorem exec_jumpIfTrue (cond target : Operand) (s : State) : exec (.jumpIfTrue cond target) s =
    .next (s.setIp (if s.val cond = 0#16 then s.ip else s.val target)) := by
  by_cases h : s.val cond = 0#16
  · simp [exec, execJumpIfTrue, h, State.setIp]
  · simp [exec, execJumpIfTrue, h]

/-- jump-if-false's answer is its effect (R77). -/
theorem exec_jumpIfFalse (cond target : Operand) (s : State) : exec (.jumpIfFalse cond target) s =
    .next (s.setIp (if s.val cond = 0#16 then s.val target else s.ip)) := by
  by_cases h : s.val cond = 0#16
  · simp [exec, execJumpIfFalse, h]
  · simp [exec, execJumpIfFalse, h, State.setIp]

/-- Settles O7: the one update is to `ip`. -/
theorem jumpIfTrueJumpsOnNonzero : Obligations.JumpIfTrueJumpsOnNonzero :=
  fun s cond target => ⟨_, exec_jumpIfTrue cond target s, rfl, rfl, rfl, s.sameData_setIp _⟩

/-- Settles O8: the one update is to `ip`. -/
theorem jumpIfFalseJumpsOnZero : Obligations.JumpIfFalseJumpsOnZero :=
  fun s cond target => ⟨rfl, _, exec_jumpIfFalse cond target s, rfl, rfl, rfl, s.sameData_setIp _⟩

/-- call with room pushes the post-decode `ip` and jumps (R99). -/
theorem exec_call_of_room {s : State} (h : s.stackFull = false) (target : Operand) :
    exec (.call target) s = .next ((s.push s.ip).setIp (s.val target)) := by
  simp [exec, execCall, h]

/-- call on a full stack raises its cause (R145, decision D4). -/
theorem exec_call_of_full {s : State} (h : s.stackFull = true) (target : Operand) :
    exec (.call target) s = .next (s.raise .stackOverflow) := by
  simp [exec, execCall, h]

/-- return jumps to the popped word (R100). -/
theorem exec_ret_of_cons {s : State} {v : Word} {rest : List Word} (h : s.stack = v :: rest) :
    exec .ret s = .next ((s.setStack rest).setIp v) := by
  rw [exec, execReturn, State.pop, h]

/-- Settles O17: the two cases of the stack. -/
theorem callPushesReturnAddress : Obligations.CallPushesReturnAddress :=
  fun s target => ⟨rfl,
    fun h => ⟨_, exec_call_of_room h target, rfl, rfl, ⟨rfl, rfl, rfl, rfl, rfl, rfl, rfl⟩, fun _ => rfl, fun _ => rfl⟩,
    fun h => ⟨_, exec_call_of_full h target, s.raised_raise _⟩⟩

/-- Halting leaves all data as it was. -/
theorem State.sameData_halt (s : State) : State.sameData s s.halt := by
  simp [State.sameData]

/-- Settles O18: the two cases of the stack. -/
theorem returnJumpsOrHalts : Obligations.ReturnJumpsOrHalts :=
  fun s => ⟨rfl, fun h => ⟨_, exec_ret_of_empty h, rfl, rfl, rfl, s.sameData_halt⟩,
    fun _ _ h => ⟨_, exec_ret_of_cons h, rfl, rfl, ⟨rfl, rfl, rfl, rfl, rfl, rfl, rfl⟩, fun _ => rfl, fun _ => rfl⟩⟩

/-- Settles O52: the top of the stack that the call left is the call's post-decode `ip`. -/
theorem returnUndoesCall : Obligations.ReturnUndoesCall :=
  fun _ target h => ⟨_, exec_call_of_room h target, rfl, fun _ hu => ⟨_, exec_ret_of_cons hu, rfl, rfl, rfl⟩⟩

/-! ### Input and output -/

/-- Settles O19: the character is the source's word cut to 8 bits. -/
theorem outputAppendsLowEightBits : Obligations.OutputAppendsLowEightBits :=
  fun s src => ⟨_, (s.val src).setWidth 8, rfl, rfl, BitVec.toNat_setWidth 8 _, ⟨rfl, rfl, rfl, rfl, rfl, rfl, rfl⟩,
    fun _ => rfl, fun _ => rfl⟩

/-- input with an empty queue blocks, whatever its destination (R105). -/
theorem exec_input_of_empty {s : State} (h : s.inq = []) (dst : Operand) : exec (.input dst) s = .next s.block := by
  rw [exec, execInput, State.inqTake, h]

/-- input moves the oldest word to a register (R105). -/
theorem exec_input_reg {s : State} {w : Word} {rest : List Word} (h : s.inq = w :: rest) (r : Fin 8) :
    exec (.input (.reg r)) s = .next ((s.setInq rest).setReg r w) := by
  rw [exec, execInput, State.inqTake, h]
  rfl

/-- input to a literal raises and takes nothing (R141, decision D12). -/
theorem exec_input_lit {s : State} (h : s.inq ≠ []) (l : Word) :
    exec (.input (.lit l)) s = .next (s.raise (.writeToImmediate l)) := by
  obtain ⟨w, rest, hinq⟩ := List.exists_cons_of_ne_nil h
  rw [exec, execInput, State.inqTake, hinq]
  rfl

/-- Blocking leaves all data as it was. -/
theorem State.sameData_block (s : State) : State.sameData s s.block := by
  simp [State.sameData]

/-- Settles O20: the empty queue, and with an oldest word the two forms of the destination. -/
theorem inputTakesOldestOrBlocks : Obligations.InputTakesOldestOrBlocks := by
  refine fun s dst => ⟨rfl, fun h => ⟨_, exec_input_of_empty h dst, rfl, rfl, rfl, s.sameData_block⟩,
    fun w rest h => ⟨?_, ?_⟩⟩
  · rintro r rfl
    exact ⟨_, exec_input_reg h r, State.getReg_setReg_same _ r w, rfl, State.onlyRegister_setReg _ r w⟩
  · rintro l rfl
    exact ⟨_, exec_input_lit (by rw [h]; exact List.cons_ne_nil w rest) l, s.raised_raise _⟩

/-! ### halt and no-op -/

/-- halt answers the halted machine (R110). -/
theorem exec_halt (s : State) : exec .halt s = .next s.halt := rfl

/-- no-op answers the machine itself (R111). -/
theorem exec_noop (s : State) : exec .noop s = .next s := rfl

/-- Settles O21: the one update is to `state`. -/
theorem haltEntersHalted : Obligations.HaltEntersHalted :=
  fun s => ⟨_, exec_halt s, rfl, rfl, rfl, s.sameData_halt⟩

/-- The prepared state differs in `ip` and `cycles` only. -/
theorem State.sameData_prepared (s : State) (n : Nat) : State.sameData s (s.prepared n) := by
  simp [State.sameData]

/-- Settles O22: the word 21 is no-op's encoding, so that the step answers the prepared state; from address 32767 its `ip`
is beyond memory, where the next fetch errs. -/
theorem noopOnlyAdvances : Obligations.NoopOnlyAdvances := by
  refine ⟨rfl, exec_noop, fun s hrun hword hcycle => ?_⟩
  have hlt : s.ip.toNat < 32768 := State.holdsAt_end_lt (ws := []) hword
  have hstep : step s = .next (s.prepared 1) :=
    (step_of_decoded_instr hrun (State.decoded_of_holdsAt (i := .noop) rfl hword) hcycle).trans (exec_noop _)
  refine ⟨_, hstep, State.advance_ip_toNat (by omega), rfl, hrun, s.sameData_prepared 1, fun hip => ?_⟩
  have hnext : (s.prepared 1).ip = 32768#16 := by rw [State.prepared_ip, hip]; rfl
  have herr := fetchBeyondMemoryStops.1 (s.prepared 1) hrun (by rw [hnext]; decide)
  exact ⟨hnext, hnext ▸ herr⟩

end Sys2Proof.Machine
end

section
/-! PROOFS. The statement that no instruction observes the output buffer or the cycle counter (spec/10_state.md section 9):
`exec` commutes with replacing both. -/

namespace Sys2Proof.Machine

/-- The state with another output buffer and another count. -/
def State.withUnobserved (s : State) (o : List Byte) (n : Nat) : State := { s with outbuf := o, cycles := n }

/-- The outcome with its next state replaced. -/
def mapNext (f : State → State) : Result → Result
  | .next t => .next (f t)
  | .fault r => .fault r
  | .refused r => .refused r

section Commute

variable (s : State) (o : List Byte) (n : Nat)

@[simp] theorem State.val_withUnobserved (op : Operand) : (s.withUnobserved o n).val op = s.val op :=
  State.val_congr rfl op

/-- The write to a destination commutes with the replacement. -/
theorem writeDestination_withUnobserved (dst : Operand) (v : Word) :
    writeDestination dst v (s.withUnobserved o n) =
      mapNext (State.withUnobserved · o n) (writeDestination dst v s) := by
  cases dst <;> rfl

theorem exec_modulo_withUnobserved (dst a b : Operand) :
    exec (.modulo dst a b) (s.withUnobserved o n) =
      mapNext (State.withUnobserved · o n) (exec (.modulo dst a b) s) := by
  have hb := s.val_withUnobserved o n b
  by_cases h : s.val b = 0#16
  · rw [exec_modulo_of_zero h, exec_modulo_of_zero (hb.trans h)]; rfl
  · rw [exec_modulo_of_ne_zero h, exec_modulo_of_ne_zero (hb ▸ h), writeDestination_withUnobserved, hb,
      State.val_withUnobserved]

theorem exec_readMemory_withUnobserved (dst addr : Operand) :
    exec (.readMemory dst addr) (s.withUnobserved o n) =
      mapNext (State.withUnobserved · o n) (exec (.readMemory dst addr) s) := by
  have hread := State.memRead_congr (s := s) (t := s.withUnobserved o n) rfl
  simp only [exec, execReadMemory, State.val_withUnobserved, hread]
  cases s.memRead (s.val addr) with
  | none => rfl
  | some v => exact writeDestination_withUnobserved s o n dst v

theorem exec_writeMemory_withUnobserved (addr src : Operand) :
    exec (.writeMemory addr src) (s.withUnobserved o n) =
      mapNext (State.withUnobserved · o n) (exec (.writeMemory addr src) s) := by
  have haddr := s.val_withUnobserved o n addr
  rcases Nat.lt_or_ge 32767 (s.val addr).toNat with h | h
  · rw [exec_writeMemory_of_gt h, exec_writeMemory_of_gt (s := s.withUnobserved o n) (haddr ▸ h), haddr]; rfl
  · rw [exec_writeMemory_of_le h, exec_writeMemory_of_le (s := s.withUnobserved o n) (haddr ▸ h), haddr,
      State.val_withUnobserved]
    rfl

/-- Every instruction but output commutes with the replacement. -/
theorem exec_withUnobserved {i : Instr} (hi : ∀ src, i ≠ .output src) :
    exec i (s.withUnobserved o n) = mapNext (State.withUnobserved · o n) (exec i s) := by
  cases i with
  | halt | noop => rfl
  | set _ _ | eq _ _ _ | gt _ _ _ | add _ _ _ | multiply _ _ _ | and _ _ _ | or _ _ _ | not _ _ =>
    simp only [exec, execSet, execEq, execGt, execAdd, execMultiply, execAnd, execOr, execNot, State.val_withUnobserved,
      writeDestination_withUnobserved]
  | jmp target => rw [exec_jmp, exec_jmp, State.val_withUnobserved]; rfl
  | jumpIfTrue cond target =>
    rw [exec_jumpIfTrue, exec_jumpIfTrue, State.val_withUnobserved, State.val_withUnobserved]; rfl
  | jumpIfFalse cond target =>
    rw [exec_jumpIfFalse, exec_jumpIfFalse, State.val_withUnobserved, State.val_withUnobserved]; rfl
  | push _ | call _ =>
    have hfull : (s.withUnobserved o n).stackFull = s.stackFull := rfl
    simp only [exec, execPush, execCall, hfull, State.val_withUnobserved]
    cases s.stackFull <;> rfl
  | pop dst =>
    obtain ⟨mem, x, stack, ip, state, cycles, inq, outbuf, config⟩ := s
    cases stack <;> cases dst <;> rfl
  | ret =>
    obtain ⟨mem, x, stack, ip, state, cycles, inq, outbuf, config⟩ := s
    cases stack <;> rfl
  | input dst =>
    obtain ⟨mem, x, stack, ip, state, cycles, inq, outbuf, config⟩ := s
    cases inq <;> cases dst <;> rfl
  | modulo dst a b => exact exec_modulo_withUnobserved s o n dst a b
  | readMemory dst addr => exact exec_readMemory_withUnobserved s o n dst addr
  | writeMemory addr src => exact exec_writeMemory_withUnobserved s o n addr src
  | output src => exact absurd rfl (hi src)

/-- output appends to the buffer that it is given (R104). -/
theorem exec_output_withUnobserved (src : Operand) : exec (.output src) (s.withUnobserved o n) =
    .next ((s.outAppend ((s.val src).setWidth 8)).withUnobserved (o ++ [(s.val src).setWidth 8]) n) := by
  rw [exec, execOutput, State.val_withUnobserved]
  rfl

end Commute

/-- Settles O42: output leaves a buffer of its own, every other instruction the one it was given. -/
theorem programCannotObserveOutputOrCount : Obligations.ProgramCannotObserveOutputOrCount := by
  intro i s t o n hexec
  by_cases hi : ∃ src, i = .output src
  · obtain ⟨src, rfl⟩ := hi
    obtain rfl : s.outAppend ((s.val src).setWidth 8) = t := Host.Outcome.next.inj hexec
    exact ⟨_, exec_output_withUnobserved s o n src⟩
  · refine ⟨o, (exec_withUnobserved s o n fun src h => hi ⟨src, h⟩).trans ?_⟩
    rw [hexec]
    rfl

end Sys2Proof.Machine
end

section
/-! PROOFS. The statements about the caller (spec/49_run_loop_host.md sections 3 and 4, spec/47_io.md,
spec/70_reset_and_hazards.md section 1): the run loop, suspension and resumption, the operations, image load and reset. -/

namespace Sys2Proof.Machine

/-! ### The run loop -/

/-- A step of a running machine that stays running has been counted below the ceiling (R115). -/
theorem step_running_counts {s t : State} (hrun : s.state = .running) (hstep : step s = .next t)
    (ht : t.state = .running) :
    t.cycles = s.cycles + 1 ∧ t.config = s.config ∧ s.cycles + 1 < s.config.cycleCeiling := by
  rcases step_cases hstep with ⟨hnot, -⟩ | ⟨-, e, n, -, rfl⟩ | ⟨-, i, n, -, -, rfl⟩ | ⟨-, i, n, -, hlt, -, he⟩
  · exact absurd hrun hnot
  · cases ht
  · cases ht
  · exact ⟨he.cycles_eq, he.config_eq, hlt⟩

/-- A machine's run of `k + 1` steps goes on after its first step. -/
theorem core_run_succ {M : Host.Core} {s t : M.State} (h : M.step s = .next t) (k : Nat) :
    M.run (k + 1) s = M.run k t := by
  rw [Host.Core.run, h]

/-- The loop takes one step of a running machine and goes on. -/
theorem runLoop_succ {s t : State} (hrun : s.state = .running) (h : step s = .next t) (fuel : Nat) :
    runLoop (fuel + 1) s = runLoop fuel t := by
  rw [runLoop, if_pos hrun, ← step_of_running hrun, h]

/-- The number `k` of steps from `s` to `t`, each of them of a running machine, and `t` is where a run returns. -/
def RunsTo (k : Nat) (s t : State) : Prop :=
  core.run k s = .next t ∧ (∀ j, j < k → ∃ u : State, core.run j s = .next u ∧ u.state = .running) ∧
    t.state ≠ .running ∧ t.state ≠ .initialized

theorem RunsTo.zero {s : State} (hrun : s.state ≠ .running) (hinit : s.state ≠ .initialized) : RunsTo 0 s s :=
  ⟨rfl, nofun, hrun, hinit⟩

theorem RunsTo.succ {k : Nat} {s t u : State} (hrun : s.state = .running) (hstep : step s = .next t)
    (h : RunsTo k t u) : RunsTo (k + 1) s u := by
  obtain ⟨hcore, hbefore, hend⟩ := h
  refine ⟨(core_run_succ (M := core) hstep k).trans hcore, fun j hj => ?_, hend⟩
  cases j with
  | zero => exact ⟨s, rfl, hrun⟩
  | succ j =>
    obtain ⟨v, hv, hvrun⟩ := hbefore j (Nat.lt_of_succ_lt_succ hj)
    exact ⟨v, (core_run_succ (M := core) hstep j).trans hv, hvrun⟩

/-- The loop ends within its fuel, if that exceeds the cycles left: a step that stays running takes one of them (R121). -/
theorem runLoop_runsTo (fuel : Nat) {s : State} (hinit : s.state ≠ .initialized)
    (hfuel : s.state = .running → s.config.cycleCeiling - s.cycles < fuel) :
    ∃ k t, runLoop fuel s = .next t ∧ RunsTo k s t := by
  induction fuel generalizing s with
  | zero =>
    have hnot : s.state ≠ .running := fun h => absurd (hfuel h) (Nat.not_lt_zero _)
    exact ⟨0, s, rfl, .zero hnot hinit⟩
  | succ fuel ih =>
    by_cases hrun : s.state = .running
    · obtain ⟨t, hstep⟩ := step_exists_next s
      obtain ⟨hinit', -, -⟩ := step_state_of_running hrun hstep
      have hfuel' : t.state = .running → t.config.cycleCeiling - t.cycles < fuel := by
        intro ht
        obtain ⟨hcycles, hconfig, hlt⟩ := step_running_counts hrun hstep ht
        have hleft := hfuel hrun
        rw [hcycles, hconfig]
        omega
      obtain ⟨k, u, hloop, hruns⟩ := ih hinit' hfuel'
      exact ⟨k + 1, u, (runLoop_succ hrun hstep fuel).trans hloop, hruns.succ hrun hstep⟩
    · exact ⟨0, s, runLoop_of_not_running hrun _, .zero hrun hinit⟩

theorem State.enterRun_state_ne_initialized (s : State) : s.enterRun.state ≠ .initialized := by
  unfold State.enterRun
  split <;> simp_all

/-- A run always returns, from where it has entered (R118, R121). -/
theorem run_runsTo (s : State) : ∃ k t, run s = .next t ∧ RunsTo k s.enterRun t := by
  refine runLoop_runsTo _ s.enterRun_state_ne_initialized fun _ => ?_
  obtain ⟨e, he⟩ := s.enterRun_eq_setState
  rw [he]
  exact Nat.lt_succ_self _

/-- Entering a run starts an initialized machine and resumes a waiting one, whatever its queue (R118, decision D19). -/
theorem State.enterRun_of_resumable {s : State} (h : s.state = .initialized ∨ s.state = .waitingForInput) :
    s.enterRun = { s with state := .running } := by
  rcases h with h | h
  · rw [State.enterRun, h]; rfl
  · rw [State.enterRun, h]; rfl

/-- Settles O55: the loop's fuel exceeds the cycles left, so that it ends where the core's steps stop running. -/
theorem runStepsUntilNotRunning : Obligations.RunStepsUntilNotRunning := by
  refine fun s => ⟨State.enterRun_of_resumable, ?_⟩
  obtain ⟨k, t, hrun, hcore, hbefore, hnot, hinit⟩ := run_runsTo s
  refine ⟨k, t, hrun, hcore, hbefore, ?_⟩
  cases ht : t.state with
  | running => exact absurd ht hnot
  | initialized => exact absurd ht hinit
  | waitingForInput => exact .inl rfl
  | halted => exact .inr (.inl rfl)
  | errored c => exact .inr (.inr ⟨c, rfl⟩)

/-! ### Suspension and resumption -/

/-- The step of a waiting machine resumes it (R118, log entry 3). -/
theorem step_of_waiting {s : State} (h : s.state = .waitingForInput) : step s = .next { s with state := .running } := by
  rw [step_of_not_running (by rw [h]; exact nofun), State.enterRun_of_resumable (.inr h)]

/-- An input that blocks leaves the machine at the input's own address, with one cycle counted (R105). -/
theorem State.block_prepared (s : State) :
    (s.prepared 2).block = { s with state := .waitingForInput, cycles := s.cycles + 1 } := by
  have hip : (s.prepared 2).block.ip = s.ip := BitVec.add_sub_cancel s.ip 2#16
  rw [← hip]
  rfl

/-- A step at an input with an empty queue blocks. -/
theorem step_input_blocks {s : State} {dst : Operand} (hrun : s.state = .running)
    (hd : s.decoded = .instr (.input dst) 2) (hinq : s.inq = []) (hcycle : s.cycles + 1 < s.config.cycleCeiling) :
    step s = .next { s with state := .waitingForInput, cycles := s.cycles + 1 } := by
  rw [step_of_decoded_instr hrun hd hcycle, exec_input_of_empty (s := s.prepared 2) hinq, State.block_prepared]

/-- A step at an input to a register takes the oldest queued word. -/
theorem step_input_takes {s : State} {r : Fin 8} {w : Word} {rest : List Word} (hrun : s.state = .running)
    (hd : s.decoded = .instr (.input (.reg r)) 2) (hinq : s.inq = w :: rest)
    (hcycle : s.cycles + 1 < s.config.cycleCeiling) :
    step s = .next (((s.prepared 2).setInq rest).setReg r w) := by
  rw [step_of_decoded_instr hrun hd hcycle, exec_input_reg (s := s.prepared 2) hinq]

/-- Settles O56: the input blocks, the next step resumes, and the one after it is the same input again, with the queue that
the machine then has. -/
theorem blockedInputRetriesAfterResume : Obligations.BlockedInputRetriesAfterResume := by
  intro s r hrun hwords hinq hcycle
  have hd : s.decoded = .instr (.input (.reg r)) 2 := State.decoded_of_holdsAt rfl hwords
  have hend : s.ip.toNat + 1 < 32768 := State.holdsAt_end_lt (ws := [20#16]) hwords
  refine ⟨_, step_input_blocks hrun hd hinq (by omega), rfl, fun w => ?_, ?_⟩
  · have htake := step_input_takes (w := w) (rest := [])
      (s := { s with state := .running, inq := s.inq ++ [w], cycles := s.cycles + 1 }) rfl hd (by simp [hinq]) hcycle
    exact ⟨_, _, step_of_waiting rfl, htake, State.getReg_setReg_same _ r w, rfl, rfl,
      State.advance_ip_toNat (s := s) (n := 2) (by omega), rfl, fun j hj => State.getReg_setReg_other _ r j w hj,
      fun _ => rfl⟩
  · exact ⟨_, _, step_of_waiting rfl,
      step_input_blocks (s := { s with state := .running, cycles := s.cycles + 1 }) rfl hd hinq hcycle, rfl⟩

/-! ### Image load and reset -/

/-- An image has a word for each two bytes. -/
theorem imageWords_length (image : List Byte) : (imageWords image).length = image.length / 2 := by
  induction image using imageWords.induct with
  | case1 lo hi bytes ih => simp only [imageWords, List.length_cons, ih]; omega
  | case2 b => simp [imageWords]
  | case3 => rfl

/-- Word `k` of an image is made of its bytes `2k` and `2k + 1`, the lower one first (R161). -/
theorem imageWords_getElem? {image : List Byte} {k : Nat} {lo hi : Byte} (hlo : image[2 * k]? = some lo)
    (hhi : image[2 * k + 1]? = some hi) : (imageWords image)[k]? = some (hi ++ lo) := by
  induction image using imageWords.induct generalizing k with
  | case1 l h bytes ih =>
    cases k with
    | zero => simp_all [imageWords]
    | succ k => exact ih (by simpa [Nat.mul_add] using hlo) (by simpa [Nat.mul_add] using hhi)
  | case2 b => simp at hhi
  | case3 => simp at hhi

/-- A word's value from its two bytes. -/
theorem byte_append_toNat (hi lo : Byte) : (hi ++ lo).toNat = lo.toNat + 256 * hi.toNat := by
  have hor := Nat.shiftLeft_add_eq_or_of_lt (i := 8) lo.isLt hi.toNat
  rw [BitVec.toNat_append, ← hor, Nat.shiftLeft_eq]
  omega

/-- An image that fits is loaded (R161). -/
theorem resetFrom_of_le {image : List Byte} (h : image.length / 2 ≤ 32768) (config : Config) :
    State.resetFrom config image =
      some { State.reset with mem := Memory.ofWords 0 (imageWords image), config := config } := by
  rw [State.resetFrom, State.resetFromWords, imageWords_length, if_pos h]

/-- A larger image is refused (decision D17). -/
theorem resetFrom_of_gt {image : List Byte} (h : 32768 < image.length / 2) (config : Config) :
    State.resetFrom config image = none := by
  rw [State.resetFrom, State.resetFromWords, imageWords_length, if_neg (Nat.not_le.mpr h)]

/-- Settles O60: the loaded memory reads as the image's words, and as 0 above them. -/
theorem imageLoadFillsMemory : Obligations.ImageLoadFillsMemory := by
  refine fun config image => ⟨fun h => ⟨_, resetFrom_of_le h config, fun k lo hi hlo hhi => ?_, fun k hk => ?_,
    Memory.ofWords_wf (imageWords_length image ▸ h), rfl⟩, fun h => resetFrom_of_gt h config⟩
  · rw [Memory.read_ofWords, if_pos (Nat.zero_le k), List.getD_eq_getElem?_getD, Nat.sub_zero,
      imageWords_getElem? hlo hhi]
    exact byte_append_toNat hi lo
  · rw [Memory.read_ofWords, if_pos (Nat.zero_le k), List.getD_eq_default _ _ (imageWords_length image ▸ hk)]
    rfl

/-- Settles O48: the memory of the empty image lists no entry, and every other field is written out in `State.reset`. -/
theorem resetStateIsAsListed : Obligations.ResetStateIsAsListed :=
  ⟨State.getReg_reset, fun _ ha => State.memRead_eq_some.mpr ⟨Nat.lt_succ_of_le ha, rfl⟩, rfl, rfl, rfl, rfl, rfl, rfl,
    rfl, rfl, rfl, rfl, ⟨.nil, nofun⟩, Nat.zero_le _, fun _ => by decide⟩

/-! ### The caller's operations -/

/-- Words appended one after another queue in order (R124). -/
theorem appendInputWords_eq (codes : List Word) (s : State) :
    appendInputWords codes s = { s with inq := s.inq ++ codes } := by
  induction codes generalizing s with
  | nil => simp [appendInputWords]
  | cons w ws ih => simp [appendInputWords, ih, appendInputWord, State.inqAppend, State.setInq]

/-- Settles O57: one word and the drain by their definitions, several words by `appendInputWords_eq`. -/
theorem appendAndDrainTouchOnlyTheirQueue : Obligations.AppendAndDrainTouchOnlyTheirQueue :=
  fun s _ codes => ⟨rfl, appendInputWords_eq codes s, rfl, rfl, rfl⟩

/-- What an operation that is neither a run nor a reset leaves unchanged. -/
def SameMachine (s t : State) : Prop :=
  t.state = s.state ∧ t.ip = s.ip ∧ t.cycles = s.cycles ∧ t.stack = s.stack ∧ (∀ r, t.getReg r = s.getReg r) ∧
    ∀ a, t.memRead a = s.memRead a

theorem SameMachine.refl (s : State) : SameMachine s s :=
  ⟨rfl, rfl, rfl, rfl, fun _ => rfl, fun _ => rfl⟩

/-- What an operation answers, of a machine that is not running (R123 to R126, R160). -/
theorem perform_answers {op : CallerOp} {s : State} {reply : Reply} {after : Result} (hrun : s.state ≠ .running)
    (h : perform op s = some (reply, after)) :
    (op = .run ∧ after = run s) ∨ (∃ image, op = .reset image ∧ ∃ t, after = .next t ∧ t.state ≠ .running) ∨
    ∃ t, after = .next t ∧ SameMachine s t := by
  unfold perform at h
  rw [if_neg hrun] at h
  cases op with
  | run => exact .inl ⟨rfl, (Prod.mk.inj (Option.some.inj h)).2.symm⟩
  | appendInputWord w =>
    exact .inr (.inr ⟨_, (Prod.mk.inj (Option.some.inj h)).2.symm, rfl, rfl, rfl, rfl, fun _ => rfl, fun _ => rfl⟩)
  | drainOutput =>
    exact .inr (.inr ⟨_, (Prod.mk.inj (Option.some.inj h)).2.symm, rfl, rfl, rfl, rfl, fun _ => rfl, fun _ => rfl⟩)
  | state | cycleCount | instructionPointer =>
    exact .inr (.inr ⟨s, (Prod.mk.inj (Option.some.inj h)).2.symm, .refl s⟩)
  | reset image =>
    refine .inr (.inl ⟨image, rfl, ?_⟩)
    rcases Nat.lt_or_ge 32768 (image.length / 2) with hlarge | hfits
    · simp only [resetFrom_of_gt hlarge] at h
      exact ⟨s, (Prod.mk.inj (Option.some.inj h)).2.symm, hrun⟩
    · simp only [resetFrom_of_le hfits] at h
      exact ⟨_, (Prod.mk.inj (Option.some.inj h)).2.symm, nofun⟩

/-- An operation cannot occur exactly while the machine runs (R128, decision D20). -/
theorem perform_eq_none_iff (op : CallerOp) (s : State) : perform op s = none ↔ s.state = .running := by
  refine ⟨fun h => ?_, fun h => perform_of_running h op⟩
  by_contra hrun
  have hreply := perform_reply hrun op
  rw [h] at hreply
  cases hreply

/-- Settles O59: a run returns a machine that is not running, a reset a fresh or the old one, and the other operations
leave the machine alone. -/
theorem callerOperationsByState : Obligations.CallerOperationsByState := by
  refine fun op s => ⟨perform_eq_none_iff op s, fun reply after h => ?_⟩
  have hrun : s.state ≠ .running := fun hs => by
    rw [perform_of_running hs] at h
    cases h
  rcases perform_answers hrun h with ⟨rfl, rfl⟩ | ⟨image, rfl, t, rfl, ht⟩ | ⟨t, rfl, hsame⟩
  · obtain ⟨k, t, hreturn, -, -, ht, -⟩ := run_runsTo s
    exact ⟨t, hreturn, ht, fun hop => absurd rfl hop⟩
  · exact ⟨t, rfl, ht, fun _ himage => absurd rfl (himage image)⟩
  · exact ⟨t, rfl, hsame.1 ▸ hrun, fun _ _ => hsame⟩

end Sys2Proof.Machine
end
